-- ==== Sys2Proof/Word.lean ====
section
/-! DEFINITION. The block's data types: bytes, 16-bit channel values, 64-bit port words, and the 8-byte report
(00_scope.md R11, R14; 20_memory.md R37). -/

namespace Sys2Proof

/-- An unsigned 8-bit value (R14). -/
abbrev Byte := BitVec 8

/-- A channel value: an unsigned 16-bit value (R14). -/
abbrev Value := BitVec 16

/-- The width of the ports `in_data`, `out_raw` and `out_decoded` (R18, R19). -/
abbrev PortWord := BitVec 64

/-- A report: exactly 8 bytes, byte 0 first (R11, R37). -/
structure Report where
  b0 : Byte
  b1 : Byte
  b2 : Byte
  b3 : Byte
  b4 : Byte
  b5 : Byte
  b6 : Byte
  b7 : Byte
  deriving DecidableEq, Repr

/-- Byte `i` of a report, the spec's `d[i]` (R37). -/
def Report.get (d : Report) (i : Fin 8) : Byte :=
  match i with
  | 0 => d.b0
  | 1 => d.b1
  | 2 => d.b2
  | 3 => d.b3
  | 4 => d.b4
  | 5 => d.b5
  | 6 => d.b6
  | 7 => d.b7

/-- The report whose byte `i` is `f i`: the spec's `for i in 0..7: d[i] = f(i)`. -/
def Report.ofFn (f : Fin 8 → Byte) : Report :=
  ⟨f 0, f 1, f 2, f 3, f 4, f 5, f 6, f 7⟩

/-- The report with byte `i` replaced by `b`: the spec's `d[i] = b`. -/
def Report.set (d : Report) (i : Fin 8) (b : Byte) : Report :=
  Report.ofFn fun j => if j = i then b else d.get j

/-- The report of eight zero bytes. -/
def Report.zero : Report := ⟨0, 0, 0, 0, 0, 0, 0, 0⟩

/-- The byte indices 0..7 in the spec's loop order. -/
def Report.indices : List (Fin 8) := [0, 1, 2, 3, 4, 5, 6, 7]

end Sys2Proof
end

