-- ==== Sys2Proof/Config.lean ====
section
/-! DEFINITION. What is fixed when the block is built (00_scope.md R6 to R13). No port, register or transaction
writes any of these (R12). The spec takes the literals from its one source, unaudited (93 I9; log entry 8). -/

namespace Sys2Proof.Config

/-- `KEY`, the Device Key (R6, decision D14). -/
def key : Report := ⟨0xC4, 0xC6, 0xC0, 0x92, 0x40, 0x23, 0xDC, 0x96⟩

/-- `CSTATE`, the Cipher State Constant, the ASCII bytes of "Htemp99e" (R7). -/
def cstate : Report := ⟨0x48, 0x74, 0x65, 0x6D, 0x70, 0x39, 0x39, 0x65⟩

/-- `SHUFFLE = [2, 4, 0, 7, 1, 6, 5, 3]` (R8). -/
def shuffle (i : Fin 8) : Fin 8 :=
  match i with
  | 0 => 2
  | 1 => 4
  | 2 => 0
  | 3 => 7
  | 4 => 1
  | 5 => 6
  | 6 => 5
  | 7 => 3

/-- `OP_CO2`, the opcode of the CO2 channel (R9). -/
def opCo2 : Byte := 0x50

/-- `OP_TEMP`, the opcode of the raw-temperature channel (R9). -/
def opTemp : Byte := 0x42

/-- `TERM`, the terminator marker (R10). -/
def term : Byte := 0x0D

/-- How many entries the channel table has: one per opcode value (R20, decision D10). -/
def tableSize : Nat := 256

end Sys2Proof.Config
end

