-- ==== Sys2Proof/Machine/Bytes.lean ====
section
/-! DEFINITION. Byte order: how a report stands on a 64-bit port (20_memory.md R37, R38). -/

namespace Sys2Proof.Machine

/-- `pack(d) = d[0] ‖ d[1] ‖ ... ‖ d[7]`: byte 0 is the most significant (R38). -/
def pack (d : Report) : PortWord :=
  d.b0 ++ d.b1 ++ d.b2 ++ d.b3 ++ d.b4 ++ d.b5 ++ d.b6 ++ d.b7

/-- `unpack(w)[i] = w[63-8i : 56-8i]` (R38). -/
def unpack (w : PortWord) : Report :=
  Report.ofFn fun i => w.extractLsb' (56 - 8 * i.val) 8

/-- A report from the bytes the host's read returned: whole reports only (R11, R42). -/
def reportOfBytes : List Byte → Option Report
  | [b0, b1, b2, b3, b4, b5, b6, b7] => some ⟨b0, b1, b2, b3, b4, b5, b6, b7⟩
  | _ => none

/-- The bytes of a report in index order (R37). -/
def bytesOfReport (d : Report) : List Byte :=
  [d.b0, d.b1, d.b2, d.b3, d.b4, d.b5, d.b6, d.b7]

end Sys2Proof.Machine
end

