-- ==== Sys2Proof/Machine/Operands.lean ====
section
/-! DEFINITION. The fields of a decoded report (30_encoding.md R53 to R58), the checksum validator over them
(40_transform.md R78, R79), and the valid report of an opcode and a value (R64). -/

namespace Sys2Proof.Machine

/-- The opcode, byte 0, used unchanged (R54). -/
def opcodeOf (dec : Report) : Byte := dec.get 0

/-- The channel value: big-endian from bytes 1 and 2, zero extended (R39, R55). -/
def valueOf (dec : Report) : Value :=
  ((dec.get 1).setWidth 16 <<< 8) ||| (dec.get 2).setWidth 16

/-- The checksum field, byte 3 (R56). -/
def checksumOf (dec : Report) : Byte := dec.get 3

/-- The terminator field, byte 4 (R57). -/
def terminatorOf (dec : Report) : Byte := dec.get 4

/-- The sum `d[0] + d[1] + d[2]`, without overflow, in 0..765 (R79). -/
def sumOf (d : Report) : Nat := (d.get 0).toNat + (d.get 1).toNat + (d.get 2).toNat

/-- CHKSUM (R78): the terminator test and the sum test; bytes 5 to 7 are never read (R58). -/
def checksumOk (d : Report) : Bool :=
  (terminatorOf d == Config.term) && (sumOf d % 256 == (checksumOf d).toNat)

/-- `plain(op, v)`, the valid decoded report of an opcode and a value, pads 0 (R64). -/
def plain (op : Byte) (v : Value) : Report :=
  let hi : Byte := (v >>> 8).setWidth 8
  let lo : Byte := v.setWidth 8
  ⟨op, hi, lo, op + hi + lo, Config.term, 0, 0, 0⟩

end Sys2Proof.Machine
end

