-- ==== Sys2Proof/Machine/Transform.lean ====
section
/-! DEFINITION. The Obfuscation Transform, stage by stage (40_transform.md R67 to R72), and its inverse `enc` (R76),
which is a tool for writing reports and no part of the block. -/

namespace Sys2Proof.Machine

/-- Stage 1, un-shuffle (R68): `phase1[SHUFFLE[i]] = data[i]` for i in 0..7, as a scatter. -/
def phase1 (data : Report) : Report :=
  Report.indices.foldl (fun p i => p.set (Config.shuffle i) (data.get i)) Report.zero

/-- Stage 2, key XOR (R69). -/
def phase2 (key p1 : Report) : Report :=
  Report.ofFn fun i => p1.get i ^^^ key.get i

/-- Stage 3, rotate-mix (R70): the formula, which governs over the source's prose (90_conflicts.md C1).
`i - 1` is taken modulo 8, so the byte before byte 0 is byte 7. -/
def phase3 (p2 : Report) : Report :=
  Report.ofFn fun i => (p2.get i >>> 3) ||| (p2.get (i - 1) <<< 5)

/-- Stage 4a (R71): `CTMP`, the nibble swap of each byte of `CSTATE`. -/
def ctmp : Report :=
  Report.ofFn fun i => (Config.cstate.get i >>> 4) ||| (Config.cstate.get i <<< 4)

/-- Stage 4b, modular subtraction (R72). -/
def phase4 (p3 : Report) : Report :=
  Report.ofFn fun i => p3.get i - ctmp.get i

/-- DECRYPT (R67): the four stages in their order (R73). Total: every 8 bytes give 8 bytes. -/
def decrypt (key data : Report) : Report :=
  phase4 (phase3 (phase2 key (phase1 data)))

/-- The derived inverse of the transform (R76): no part of the block. -/
def enc (key p : Report) : Report :=
  let q3 := Report.ofFn fun i => p.get i + ctmp.get i
  let q2 := Report.ofFn fun i => ((q3.get i &&& 0x1F) <<< 3) ||| (q3.get (i + 1) >>> 5)
  let q1 := Report.ofFn fun i => q2.get i ^^^ key.get i
  Report.ofFn fun i => q1.get (Config.shuffle i)

end Sys2Proof.Machine
end

