-- ==== Sys2Proof/Machine/Decoder.lean ====
section
/-! DEFINITION. The Report Decoder (41_decoder.md R83 to R92) and the class of a report (30_encoding.md R59).
It is pure: its result depends on the raw report and the constant key alone (R91, R92). -/

namespace Sys2Proof.Machine

/-- Which way the decoded report was found (R85, R86). -/
inductive DecodePath where
  | clear
  | transformed
  deriving DecidableEq, Repr

/-- The bit on `out_path` (R19): 0 clear, 1 transformed. -/
def DecodePath.bit : DecodePath → Bool
  | .clear => false
  | .transformed => true

/-- `Ok{path, dec, opcode, value} | Err{raw, attempted}` (R83). -/
inductive DecodeResult where
  | ok (path : DecodePath) (dec : Report) (opcode : Byte) (value : Value)
  | err (raw attempted : Report)
  deriving DecidableEq, Repr

/-- Step 5, extraction (R88). -/
def extractFields (path : DecodePath) (dec : Report) : DecodeResult :=
  .ok path dec (opcodeOf dec) (valueOf dec)

/-- `decode(raw)` with the key an argument (R83, R91): the clear check first (R84, R85), then the candidate (R86),
then the Checksum Error (R87). -/
def decodeReport (key raw : Report) : DecodeResult :=
  if checksumOk raw then extractFields .clear raw
  else if checksumOk (decrypt key raw) then extractFields .transformed (decrypt key raw)
  else .err raw (decrypt key raw)

/-- The four classes of a report cycle (R59). -/
inductive ReportClass where
  | chkerr
  | co2
  | temp
  | unknown
  deriving DecidableEq, Repr

/-- The class of an opcode of a successfully decoded report (R59, classes 2 to 4; R60). -/
def classOfOpcode (op : Byte) : ReportClass :=
  if op = Config.opCo2 then .co2 else if op = Config.opTemp then .temp else .unknown

/-- The class of a raw report, tested in the order of R59. -/
def classify (raw : Report) : ReportClass :=
  match decodeReport Config.key raw with
  | .err _ _ => .chkerr
  | .ok _ _ op _ => classOfOpcode op

end Sys2Proof.Machine
end

