-- ==== Sys2Proof/Syntax.lean ====
section
/-! DEFINITION. The transactions of the block, one constructor per row of opcode_table.json, and the stimuli that
encode them (00_scope.md R3; 30_encoding.md R51 to R63). -/

namespace Sys2Proof

/-- One transaction of the block (R3). A report transaction carries its raw report; which of the four report
constructors it is, is the report's class (R59). -/
inductive Instr where
  /-- RST (R128): a rising edge with `rst = 1`; the levels on `in_valid` and `in_data` are carried and ignored (R118). -/
  | rst (inValid : Bool) (inData : PortWord)
  /-- IDLE (R102): a rising edge with `rst = 0`, `in_valid = 0`; the level on `in_data` is carried and ignored. -/
  | idle (inData : PortWord)
  /-- RPT_CO2 (R94): a report that decodes to opcode 0x50. -/
  | rptCo2 (raw : Report)
  /-- RPT_TEMP (R95): a report that decodes to opcode 0x42. -/
  | rptTemp (raw : Report)
  /-- RPT_UNKNOWN (R96): a report that decodes to any other opcode. -/
  | rptUnknown (raw : Report)
  /-- RPT_CHKERR (R87): a report that fails both checks. -/
  | rptChkerr (raw : Report)
  /-- DIAG (R103): the combinational read of `CT[addr]`; takes no edge. -/
  | diag (addr : Byte)
  /-- DECRYPT (R67): the transform's answer to `data`; combinational, takes no edge. -/
  | decrypt (data : Report)
  /-- CHKSUM (R78): the validator's answer to `d`; combinational, takes no edge. -/
  | chksum (d : Report)
  deriving DecidableEq, Repr

/-- What one line of the host puts on the block's inputs (R18, R63): the encoding of a transaction. -/
inductive Stimulus where
  /-- A rising edge: the control word, `ctrl[1] = rst` and `ctrl[0] = in_valid` (R51), and the level on `in_data`. -/
  | edge (ctrl : BitVec 2) (inData : PortWord)
  /-- A level on `diag_addr`, no edge (R63, R103). -/
  | diagPort (addr : Byte)
  /-- A level on the transform's data input, no edge (R67; log entry 4). -/
  | transformPort (data : PortWord)
  /-- A level on the validator's input, no edge (R78; log entry 4). -/
  | validatorPort (d : PortWord)
  deriving DecidableEq, Repr

/-- Whether the line takes a rising edge (R63: a DIAG line takes none). -/
def Stimulus.takesEdge : Stimulus → Bool
  | .edge _ _ => true
  | .diagPort _ => false
  | .transformPort _ => false
  | .validatorPort _ => false

/-- Whether the transaction is clocked (R3, R59): the others are combinational. -/
def Instr.isClocked : Instr → Bool
  | .rst _ _ => true
  | .idle _ => true
  | .rptCo2 _ => true
  | .rptTemp _ => true
  | .rptUnknown _ => true
  | .rptChkerr _ => true
  | .diag _ => false
  | .decrypt _ => false
  | .chksum _ => false

/-- The raw report of a report transaction (R101); `none` for the others. -/
def Instr.report? : Instr → Option Report
  | .rst _ _ => none
  | .idle _ => none
  | .rptCo2 raw => some raw
  | .rptTemp raw => some raw
  | .rptUnknown raw => some raw
  | .rptChkerr raw => some raw
  | .diag _ => none
  | .decrypt _ => none
  | .chksum _ => none

/-- Whether the transaction is a reset edge (R128). -/
def Instr.isReset : Instr → Bool
  | .rst _ _ => true
  | .idle _ => false
  | .rptCo2 _ => false
  | .rptTemp _ => false
  | .rptUnknown _ => false
  | .rptChkerr _ => false
  | .diag _ => false
  | .decrypt _ => false
  | .chksum _ => false

/-- Whether the transaction is a report of class CHKERR (R59). -/
def Instr.isChkerr : Instr → Bool
  | .rst _ _ => false
  | .idle _ => false
  | .rptCo2 _ => false
  | .rptTemp _ => false
  | .rptUnknown _ => false
  | .rptChkerr _ => true
  | .diag _ => false
  | .decrypt _ => false
  | .chksum _ => false

end Sys2Proof
end

