-- ==== Sys2Proof/WellFormed.lean ====
section
/-! DEFINITION. Which terms of Instr are transactions of the block: a report transaction stands under the class
of its raw report (30_encoding.md R59). Every other operand may hold any value (R61, R103). -/

namespace Sys2Proof

/-- The checks of R59: each report constructor holds only reports of its class. -/
def Instr.wellFormed : Instr → Bool
  | .rst _ _ => true
  | .idle _ => true
  | .rptCo2 raw => Machine.classify raw == .co2
  | .rptTemp raw => Machine.classify raw == .temp
  | .rptUnknown raw => Machine.classify raw == .unknown
  | .rptChkerr raw => Machine.classify raw == .chkerr
  | .diag _ => true
  | .decrypt _ => true
  | .chksum _ => true

end Sys2Proof
end

