-- ==== Sys2Proof/Decode.lean ====
section
/-! DEFINITION. Decoding a stimulus into a transaction (30_encoding.md R51, R59), the encoder, the byte form with its
rejections by name, and the opcode table's numbering of the bits. Every stimulus decodes: no encoding is illegal or
reserved (R61). -/

namespace Sys2Proof

/-- A report cycle, classified by R59. -/
def decodeReportLine (raw : Report) : Instr :=
  match Machine.classify raw with
  | .co2 => .rptCo2 raw
  | .temp => .rptTemp raw
  | .unknown => .rptUnknown raw
  | .chkerr => .rptChkerr raw

/-- The control word's bit `rst` (R51). -/
def ctrlRst (ctrl : BitVec 2) : Bool := ctrl.getLsbD 1

/-- The control word's bit `in_valid` (R51). -/
def ctrlInValid (ctrl : BitVec 2) : Bool := ctrl.getLsbD 0

/-- The control word of two bits (R51). -/
def ctrlWord (rst inValid : Bool) : BitVec 2 := BitVec.ofBool rst ++ BitVec.ofBool inValid

/-- The transaction a stimulus selects (R51): `1x` RST, `00` IDLE, `01` a report. Total (R61). -/
def decode : Stimulus → Instr
  | .edge ctrl w =>
    if ctrlRst ctrl then .rst (ctrlInValid ctrl) w
    else if ctrlInValid ctrl then decodeReportLine (Machine.unpack w)
    else .idle w
  | .diagPort a => .diag a
  | .transformPort w => .decrypt (Machine.unpack w)
  | .validatorPort w => .chksum (Machine.unpack w)

/-- The encoding of a transaction (R51, R63): its control word and `in_data`, or the level it puts on its own input. -/
def encode : Instr → Stimulus
  | .rst v w => .edge (ctrlWord true v) w
  | .idle w => .edge (ctrlWord false false) w
  | .rptCo2 raw => .edge (ctrlWord false true) (Machine.pack raw)
  | .rptTemp raw => .edge (ctrlWord false true) (Machine.pack raw)
  | .rptUnknown raw => .edge (ctrlWord false true) (Machine.pack raw)
  | .rptChkerr raw => .edge (ctrlWord false true) (Machine.pack raw)
  | .diag a => .diagPort a
  | .decrypt data => .transformPort (Machine.pack data)
  | .chksum d => .validatorPort (Machine.pack d)

/-- The input a line of bytes is meant for: the formats of R51 to R53 and the diagnostic address (log entry 6). -/
inductive PortGroup where
  | clocked
  | diagnostic
  | transform
  | validator
  deriving DecidableEq, Repr

/-- Why a line of bytes is no stimulus. None of these can stand on the ports: the port carries whole reports (R42). -/
inductive DecodeError where
  /-- No byte for the control word. -/
  | noControlWord
  /-- The control byte has a bit above the two of format CTRL (R51). -/
  | controlWordTooWide
  /-- Not the 8 bytes of a whole report (R11, R42). -/
  | notAWholeReport
  /-- Not the one byte of `diag_addr` (R18). -/
  | notOneAddressByte
  deriving DecidableEq, Repr

/-- The port word of a whole report's bytes, byte 0 first (R38, R42). -/
def wordOfBytes (bs : List Byte) : Except DecodeError PortWord :=
  match Machine.reportOfBytes bs with
  | some d => .ok (Machine.pack d)
  | none => .error .notAWholeReport

/-- A stimulus from bytes: the control byte (bits 1 and 0 the control word) and the 8 bytes on `in_data`, or the
bytes of the other inputs. -/
def stimulusOfBytes : PortGroup → List Byte → Except DecodeError Stimulus
  | .clocked, [] => .error .noControlWord
  | .clocked, c :: bs =>
    if c.toNat < 4 then (wordOfBytes bs).map (Stimulus.edge (c.setWidth 2))
    else .error .controlWordTooWide
  | .diagnostic, [a] => .ok (.diagPort a)
  | .diagnostic, _ => .error .notOneAddressByte
  | .transform, bs => (wordOfBytes bs).map Stimulus.transformPort
  | .validator, bs => (wordOfBytes bs).map Stimulus.validatorPort

/-- The decoder on any bytes, rejecting by name. -/
def decodeBytes (g : PortGroup) (bs : List Byte) : Except DecodeError Instr :=
  (stimulusOfBytes g bs).map decode

/-- The bytes of a stimulus, the inverse of `stimulusOfBytes`. -/
def bytesOfStimulus : Stimulus → PortGroup × List Byte
  | .edge ctrl w => (.clocked, ctrl.setWidth 8 :: Machine.bytesOfReport (Machine.unpack w))
  | .diagPort a => (.diagnostic, [a])
  | .transformPort w => (.transform, Machine.bytesOfReport (Machine.unpack w))
  | .validatorPort w => (.validator, Machine.bytesOfReport (Machine.unpack w))

/-- DESIGN CHOICE (log entry 14): the level on `in_data` at an edge of the notation that samples none, an RST or IDLE
line. The spec gives none: it is ignored there and may hold any value (R18, R63; decision D19). -/
def unsampledInData : PortWord := 0

/-- The stimulus of a word of opcode_table.json (log entry 6). A word of one byte is of format CTRL when it fits the
control word's two bits, `in_data` then holding `unsampledInData` (log entry 14), and of format DIAG_PORT otherwise; a longer word is the
report of a report cycle (control word `01`), packed by R38, its bits above `nbits` being 0. -/
def tableStimulus (nbits w : Nat) : Option Stimulus :=
  if 64 < nbits || 2 ^ nbits ≤ w then none
  else if nbits ≤ 8 then
    if w < 4 then some (.edge (BitVec.ofNat 2 w) unsampledInData) else some (.diagPort (BitVec.ofNat 8 w))
  else some (.edge (ctrlWord false true) (BitVec.ofNat 64 w))

/-- The transaction this decoder reads from a word of the opcode table. -/
def decodeTableWord (nbits w : Nat) : Option Instr :=
  (tableStimulus nbits w).map decode

end Sys2Proof
end

