-- ==== Sys2Proof/Machine/State.lean ====
section
/-! DEFINITION. The state of the block: the channel table and the ten output registers (10_state.md R36), and beside
them what the host puts on the inputs, which the spec calls inputs and not state (R34; log entries 1 to 3). -/

namespace Sys2Proof.Machine

/-- An entry of the channel table: `{valid, value}` (R20). -/
structure Entry where
  valid : Bool
  value : Value
  deriving DecidableEq, Repr

/-- The reset contents of an entry, the channel state "unseen" (R21). -/
def Entry.unseen : Entry := ⟨false, 0⟩

/-- The channel table `CT`, the block's one address space (R20, R41): the entries that differ from the reset contents,
by address, the addresses strictly rising. An address not listed holds `Entry.unseen` (R21; log entry 5). -/
abbrev Memory := List (Nat × Entry)

/-- The ten output registers OV, OE, OP, OOP, OVAL, ORAW, ODEC, SV, SCO2, STEMP (R24). -/
structure Outputs where
  ov : Bool
  oe : Bool
  op : Bool
  oop : Byte
  oval : Value
  oraw : PortWord
  odec : PortWord
  sv : Bool
  sco2 : Value
  stemp : Value
  deriving DecidableEq, Repr

/-- Every output register 0 (R25). -/
def Outputs.reset : Outputs := ⟨false, false, false, 0, 0, 0, 0, false, 0, 0⟩

/-- The levels on the input ports (R18). The model's own field, not the spec's state (R34; log entry 3). -/
structure Pins where
  rst : Bool
  inValid : Bool
  inData : PortWord
  diagAddr : Byte
  deriving DecidableEq, Repr

/-- The block `(CT, OUT)` (R36), the levels on its inputs, and the host's lines still to come (R63; log entry 1). -/
structure State where
  ct : Memory
  out : Outputs
  pins : Pins
  lines : List Stimulus
  deriving DecidableEq, Repr

/-- What stops the machine: nothing. No report value, control word or `diag_addr` value causes a fault, a hang or an
unspecified result (R116); the Checksum Error is a result on the output registers (R113, R114). -/
inductive Fault where
  deriving DecidableEq, Repr

/-- Why a transaction has no meaning. -/
inductive Refusal where
  /-- An arm of `exec` whose instruction has no meaning yet. No arm raises it: every row is modelled. Safe. -/
  | notModelled (mnemonic : String)
  deriving DecidableEq, Repr

/-- The state right after a reset edge (R21, R25, R128): no channel known, every output register 0. The host's side
(levels 0, no line to come) is the model's choice (log entries 1 and 3). -/
def State.reset : State :=
  { ct := [], out := Outputs.reset, pins := ⟨false, false, 0, 0⟩, lines := [] }

end Sys2Proof.Machine
end

