-- ==== Sys2Proof/Machine/Table.lean ====
section
/-! DEFINITION. The channel table's operations: reading and writing one whole entry (20_memory.md R41, R43), and its
canonical form. -/

namespace Sys2Proof.Machine

/-- `CT[a]` (R20): the listed entry, or the reset contents (R21). -/
def Memory.read (m : Memory) (a : Byte) : Entry :=
  match m with
  | [] => Entry.unseen
  | (k, e) :: rest => if k = a.toNat then e else Memory.read rest a

/-- `CT[a] <- e`, keeping the canonical form: writing the reset contents removes the entry. -/
def Memory.write (m : Memory) (a : Byte) (e : Entry) : Memory :=
  match m with
  | [] => if e = Entry.unseen then [] else [(a.toNat, e)]
  | (k, x) :: rest =>
    if a.toNat < k then
      if e = Entry.unseen then (k, x) :: rest else (a.toNat, e) :: (k, x) :: rest
    else if a.toNat = k then
      if e = Entry.unseen then rest else (a.toNat, e) :: rest
    else (k, x) :: Memory.write rest a e

/-- The canonical form from address `lo` on: addresses rising, inside the table, no entry equal to the reset contents. -/
def Memory.wfFrom (lo : Nat) (m : Memory) : Bool :=
  match m with
  | [] => true
  | (k, e) :: rest =>
    decide (lo ≤ k) && decide (k < Config.tableSize) && decide (e ≠ Entry.unseen) && Memory.wfFrom (k + 1) rest

/-- The canonical form of the channel table. -/
def Memory.wf (m : Memory) : Bool := m.wfFrom 0

/-- Every listed entry is known: what a table holds that only R93 and R128 have written. -/
def Memory.allKnown (m : Memory) : Bool := m.all fun c => c.2.valid

end Sys2Proof.Machine
end

