-- ==== Sys2Proof/Machine/Flags.lean ====
section
/-! DEFINITION. The block has no flags (10_state.md R29). What stands here is the emission gate (42_demux.md R97) and
the result bits and fields that a report loads into the output registers (R101, 60_exceptions.md R113). -/

namespace Sys2Proof.Machine

/-- A sample: the latest value of each channel (R97). -/
structure Sample where
  co2 : Value
  temp : Value
  deriving DecidableEq, Repr

/-- Whether both channels are known: the emission gate's condition (R97). -/
def bothKnown (ct : Memory) : Bool :=
  (ct.read Config.opCo2).valid && (ct.read Config.opTemp).valid

/-- The emission gate, on the updated table (R97). -/
def emissionGate (ct : Memory) : Option Sample :=
  if bothKnown ct then some ⟨(ct.read Config.opCo2).value, (ct.read Config.opTemp).value⟩ else none

/-- The output registers a successful report loads (R101). -/
def successOutputs (raw : Report) (path : DecodePath) (dec : Report) (opcode : Byte) (value : Value) (sample : Option Sample) :
    Outputs :=
  { ov := true
    oe := false
    op := path.bit
    oop := opcode
    oval := value
    oraw := pack raw
    odec := pack dec
    sv := sample.isSome
    sco2 := (sample.map Sample.co2).getD 0
    stemp := (sample.map Sample.temp).getD 0 }

/-- The output registers a Checksum Error loads (R113, decision D8). -/
def errorOutputs (raw attempted : Report) : Outputs :=
  { ov := true
    oe := true
    op := true
    oop := 0
    oval := 0
    oraw := pack raw
    odec := pack attempted
    sv := false
    sco2 := 0
    stemp := 0 }

/-- The output registers after an idle edge: the two pulses fall, the rest hold (R102, 10_state.md R26). -/
def idleOutputs (o : Outputs) : Outputs :=
  { o with ov := false, sv := false }

end Sys2Proof.Machine
end

