-- ==== Sys2Proof/Machine/Ops.lean ====
section
/-! DEFINITION. The named operations over the block's state: driving the inputs, reset (70_reset_and_hazards.md R128),
idle (42_demux.md R102), OBSERVE (R93), taking the Checksum Error (60_exceptions.md R113, R114), the report edge (R101),
and taking the host's next line (30_encoding.md R63). -/

namespace Sys2Proof.Machine

/-- The levels of a rising edge on `rst`, `in_valid` and `in_data` (R18, R51). -/
def State.driveEdge (s : State) (rst inValid : Bool) (w : PortWord) : State :=
  { s with pins := { s.pins with rst := rst, inValid := inValid, inData := w } }

/-- A level on `diag_addr` (R18, R103). -/
def State.driveDiag (s : State) (a : Byte) : State :=
  { s with pins := { s.pins with diagAddr := a } }

/-- A level on `in_data`, with no edge (R18; log entry 4). -/
def State.driveData (s : State) (w : PortWord) : State :=
  { s with pins := { s.pins with inData := w } }

/-- Reset (R128): every entry of the table and every output register takes its reset value. -/
def State.resetBlock (s : State) : State :=
  { s with ct := [], out := Outputs.reset }

/-- An idle edge (R102): OV and SV fall, nothing else changes. -/
def State.idleBlock (s : State) : State :=
  { s with out := idleOutputs s.out }

/-- OBSERVE (R93): store the value, then apply the gate to the updated table, in one edge (20_memory.md R44). -/
def observe (ct : Memory) (opcode : Byte) (value : Value) : Memory × Option Sample :=
  let ct' := ct.write opcode ⟨true, value⟩
  (ct', emissionGate ct')

/-- A report that decoded successfully (R101). -/
def State.acceptReport (s : State) (raw : Report) (path : DecodePath) (dec : Report) (opcode : Byte) (value : Value) : State :=
  { s with
    ct := (observe s.ct opcode value).1
    out := successOutputs raw path dec opcode value (observe s.ct opcode value).2 }

/-- Taking the Checksum Error (R113, R114): the error outputs are loaded, the table is unchanged, the block goes on. -/
def State.takeChecksumError (s : State) (raw attempted : Report) : State :=
  { s with out := errorOutputs raw attempted }

/-- The effect of a report edge on table and registers, for the decoder's answer (R101). -/
def State.loadResult (s : State) (raw : Report) (r : DecodeResult) : State :=
  match r with
  | .ok path dec opcode value => s.acceptReport raw path dec opcode value
  | .err raw' attempted => s.takeChecksumError raw' attempted

/-- RPT, the report transaction (R101): its levels on the inputs, and the decoder's answer loaded. -/
def State.reportEdge (s : State) (raw : Report) : State :=
  (s.loadResult raw (decodeReport Config.key raw)).driveEdge false true (pack raw)

/-- The line the host puts on the inputs next (R63). With no line left the host presents nothing: an idle edge, the
level on `in_data` staying as it is (log entry 2). -/
def State.nextLine (s : State) : Stimulus :=
  match s.lines with
  | [] => .edge 0 s.pins.inData
  | x :: _ => x

/-- The host's lines after its next one is taken. -/
def State.dropLine (s : State) : State :=
  { s with lines := s.lines.tail }

/-- The state with `x` as the host's next line, in the place of the one that stood there. -/
def State.placeLine (s : State) (x : Stimulus) : State :=
  { s with lines := x :: s.lines.tail }

end Sys2Proof.Machine
end

