-- ==== Sys2Proof/Machine/Control.lean ====
section
/-! DEFINITION. The meanings of RST and IDLE, the transactions that present no report. -/

namespace Sys2Proof.Machine

/-- RST (70_reset_and_hazards.md R128): reset, whatever stands on `in_valid` and `in_data` (60_exceptions.md R118). -/
def execRst (inValid : Bool) (inData : PortWord) (s : State) : Host.Outcome State Fault Refusal :=
  .next (s.resetBlock.driveEdge true inValid inData)

/-- IDLE (42_demux.md R102). -/
def execIdle (inData : PortWord) (s : State) : Host.Outcome State Fault Refusal :=
  .next (s.idleBlock.driveEdge false false inData)

end Sys2Proof.Machine
end

