-- ==== Sys2Proof/Machine/Reports.lean ====
section
/-! DEFINITION. The meanings of the four report transactions (42_demux.md R94 to R96, 60_exceptions.md R113), each the
report transaction of R101. R94, R95, R96 and R113 are what R101 comes to on the reports of each class. -/

namespace Sys2Proof.Machine

/-- RPT_CO2 (R94, R101). -/
def execRptCo2 (raw : Report) (s : State) : Host.Outcome State Fault Refusal :=
  .next (s.reportEdge raw)

/-- RPT_TEMP (R95, R101). -/
def execRptTemp (raw : Report) (s : State) : Host.Outcome State Fault Refusal :=
  .next (s.reportEdge raw)

/-- RPT_UNKNOWN (R96, R101): stored like any other; once both known channels are present it emits (decision D13). -/
def execRptUnknown (raw : Report) (s : State) : Host.Outcome State Fault Refusal :=
  .next (s.reportEdge raw)

/-- RPT_CHKERR (R87, R113, R101). -/
def execRptChkerr (raw : Report) (s : State) : Host.Outcome State Fault Refusal :=
  .next (s.reportEdge raw)

end Sys2Proof.Machine
end

