-- ==== Sys2Proof/Machine/Ports.lean ====
section
/-! DEFINITION. What can be read off the block between two edges: the twelve output ports (10_state.md R19), and the
outputs of the combinational units (R27; 40_transform.md R67, R80). None of these is state: each is a function of it. -/

namespace Sys2Proof.Machine

/-- `diag_valid = CT[diag_addr].valid` (R103). -/
def State.diagValid (s : State) : Bool := (s.ct.read s.pins.diagAddr).valid

/-- `diag_value = CT[diag_addr].value` (R103). -/
def State.diagValue (s : State) : Value := (s.ct.read s.pins.diagAddr).value

/-- The output of the transform, whose data input is the report on `in_data` and whose key is `KEY` (R67). -/
def State.transformOut (s : State) : Report := decrypt Config.key (unpack s.pins.inData)

/-- The output of the validator on the raw report (R80, R84). -/
def State.rawCheck (s : State) : Bool := checksumOk (unpack s.pins.inData)

/-- The output of the validator on the candidate (R80, R87). -/
def State.candidateCheck (s : State) : Bool := checksumOk s.transformOut

/-- The output ports (R19). -/
structure OutPorts where
  outValid : Bool
  outErr : Bool
  outPath : Bool
  outOpcode : Byte
  outValue : Value
  outRaw : PortWord
  outDecoded : PortWord
  sampleValid : Bool
  sampleCo2 : Value
  sampleTemp : Value
  diagValid : Bool
  diagValue : Value
  deriving DecidableEq, Repr

/-- The output ports as the host sees them: the registers that drive them, and the diagnostic read (R19). -/
def State.ports (s : State) : OutPorts :=
  { outValid := s.out.ov
    outErr := s.out.oe
    outPath := s.out.op
    outOpcode := s.out.oop
    outValue := s.out.oval
    outRaw := s.out.oraw
    outDecoded := s.out.odec
    sampleValid := s.out.sv
    sampleCo2 := s.out.sco2
    sampleTemp := s.out.stemp
    diagValid := s.diagValid
    diagValue := s.diagValue }

end Sys2Proof.Machine
end

