-- ==== Sys2Proof/Machine/Units.lean ====
section
/-! DEFINITION. The meanings of the combinational rows: DIAG (42_demux.md R103), DECRYPT (40_transform.md R67) and CHKSUM
(R78). None takes an edge, so table and output registers stay; the result stands on the unit's output, which is a
function of the level on its input (Machine/Ports.lean; log entry 4). -/

namespace Sys2Proof.Machine

/-- DIAG (R103): `addr` on `diag_addr`; `State.diagValid` and `State.diagValue` then show the entry. -/
def execDiag (addr : Byte) (s : State) : Host.Outcome State Fault Refusal :=
  .next (s.driveDiag addr)

/-- DECRYPT (R67): `data` on the transform's input; `State.transformOut` then shows `decrypt(KEY, data)`. -/
def execDecrypt (data : Report) (s : State) : Host.Outcome State Fault Refusal :=
  .next (s.driveData (pack data))

/-- CHKSUM (R78): `d` on the validator's input; `State.rawCheck` then shows `checksum_ok(d)`. -/
def execChksum (d : Report) (s : State) : Host.Outcome State Fault Refusal :=
  .next (s.driveData (pack d))

end Sys2Proof.Machine
end

