-- ==== Sys2Proof/Machine/Dispatch.lean ====
section
/-! DEFINITION. One arm per transaction: exec sends each to its meaning. -/

namespace Sys2Proof.Machine

def exec (i : Instr) (s : State) : Host.Outcome State Fault Refusal :=
  match i with
  | .rst v w => Sys2Proof.Machine.execRst v w s
  | .idle w => Sys2Proof.Machine.execIdle w s
  | .rptCo2 raw => Sys2Proof.Machine.execRptCo2 raw s
  | .rptTemp raw => Sys2Proof.Machine.execRptTemp raw s
  | .rptUnknown raw => Sys2Proof.Machine.execRptUnknown raw s
  | .rptChkerr raw => Sys2Proof.Machine.execRptChkerr raw s
  | .diag addr => Sys2Proof.Machine.execDiag addr s
  | .decrypt data => Sys2Proof.Machine.execDecrypt data s
  | .chksum d => Sys2Proof.Machine.execChksum d s

end Sys2Proof.Machine
end

