-- ==== Sys2Proof/Machine/Step.lean ====
section
/-! DEFINITION. One step: the host's next line is taken, decoded and executed (10_state.md R17; 30_encoding.md R63). -/

namespace Sys2Proof.Machine

/-- One step of the block: one line of the host, a rising edge with the inputs sampled just before it (R17), or a
combinational reading between two edges (R63). -/
def step (s : State) : Host.Outcome State Fault Refusal :=
  exec (decode s.nextLine) s.dropLine

/-- `s` with the transaction of a table word as the host's next line (log entries 1 and 6). -/
def State.withFetchWord (s : State) (nbits w : Nat) : State :=
  match tableStimulus nbits w with
  | some x => s.placeLine x
  | none => s

end Sys2Proof.Machine
end

