-- ==== Sys2Proof/Machine/HostView.lean ====
section
/-! DEFINITION. The sample as the host reads it (42_demux.md R104 to R106): the CO2 value used as it is, and the
temperature in binary64. Exact arithmetic is done on integers in units of 2^-44, in which both v/16.0 and the binary64
value of 273.15 are whole numbers; the one rounding of R105 is explicit. The binary64 format and its rounding are
general knowledge (93 G1; log entry 7). -/

namespace Sys2Proof.Machine

/-- The binary64 value nearest to 273.15, in units of 2^-44 (R104). -/
def celsiusOffset : Nat := 0x11126666666666

/-- `v / 16.0`, exact, in units of 2^-44 (R105). -/
def kelvin (v : Value) : Nat := v.toNat * 2 ^ 40

/-- `v / 16.0 - 273.15` before its rounding, in units of 2^-44 (R105). -/
def tempExact (v : Value) : Int := (kelvin v : Int) - (celsiusOffset : Int)

/-- `n / 2^shift` rounded to nearest, ties to even (R104). -/
def roundHalfEven (n shift : Nat) : Nat :=
  let q := n / 2 ^ shift
  let r := n % 2 ^ shift
  if 2 ^ shift < 2 * r ∨ (2 * r = 2 ^ shift ∧ q % 2 = 1) then q + 1 else q

/-- The significand of 53 bits of a magnitude whose top bit is `top`, rounded where it has more (R104). -/
def significand (n top : Nat) : Nat :=
  if top ≤ 52 then n * 2 ^ (52 - top) else roundHalfEven n (top - 52)

/-- `fl64`: the binary64 pattern of `d` units of 2^-44 (R104): sign, exponent biased by 1023, fraction. A significand
that rounds up to 2^53 carries into the exponent. -/
def fl64 (d : Int) : BitVec 64 :=
  if d = 0 then 0
  else
    let top := Nat.log2 d.natAbs
    BitVec.ofNat 64 ((if d < 0 then 2 ^ 63 else 0) + (top + 979) * 2 ^ 52 + (significand d.natAbs top - 2 ^ 52))

/-- `temp_c(v) = fl64(fl64(v) / 16.0 - 273.15)` (R104). -/
def tempC (v : Value) : BitVec 64 := fl64 (tempExact v)

/-- The exponent field of a binary64 pattern, biased by 1023. -/
def binary64Exponent (b : BitVec 64) : Nat := b.toNat / 2 ^ 52 % 2 ^ 11

/-- The significand of a normal binary64 pattern, its implicit leading bit in place. -/
def binary64Significand (b : BitVec 64) : Nat := 2 ^ 52 + b.toNat % 2 ^ 52

/-- Whether `b` is a normal pattern whose value is exactly `n` units of 2^-44. Its magnitude is its significand times
2^(e - 1031) units; the power stands on the side where it is whole, so no bit is dropped. -/
def binary64Is (b : BitVec 64) (n : Int) : Bool :=
  let e := binary64Exponent b
  decide (0 < e ∧ e < 2047) && (decide (2 ^ 63 ≤ b.toNat) == decide (n < 0)) &&
    binary64Significand b * 2 ^ (e - 1031) == n.natAbs * 2 ^ (1031 - e)

/-- `Sample{co2_ppm, temperature_c}` as the host reads it (R104). -/
structure HostSample where
  co2Ppm : Value
  temperatureC : BitVec 64
  deriving DecidableEq, Repr

/-- The host's sample of a cycle: there is one only while `sample_valid = 1` (R104, R106). -/
def State.hostSample (s : State) : Option HostSample :=
  if s.out.sv then some ⟨s.out.sco2, tempC s.out.stemp⟩ else none

end Sys2Proof.Machine
end

