-- ==== Sys2Proof/Machine/Run.lean ====
section
/-! DEFINITION. Programs of transaction lines (30_encoding.md R63 to R66), and the observation of a run
(70_reset_and_hazards.md R140, R142). -/

namespace Sys2Proof.Machine

/-- A line of the transaction notation (R63) and its pseudo-transactions (R64, R65). -/
inductive Line where
  | rst
  | idle (n : Nat)
  | rpt (w : PortWord)
  | diag (a : Byte)
  | rptc (op : Byte) (v : Value)
  | co2c (v : Value)
  | tempc (v : Value)
  | rpte (op : Byte) (v : Value)
  | co2e (v : Value)
  | tempe (v : Value)
  deriving DecidableEq, Repr

/-- `RPT w` (R63). -/
def reportStimulus (w : PortWord) : Stimulus := .edge (ctrlWord false true) w

/-- `RPTC op, v`: the clear report (R64). -/
def clearStimulus (op : Byte) (v : Value) : Stimulus := reportStimulus (pack (plain op v))

/-- `RPTE op, v`: the report through the derived inverse of the transform (R65). -/
def obfuscatedStimulus (op : Byte) (v : Value) : Stimulus := reportStimulus (pack (enc Config.key (plain op v)))

/-- What a line expands to (R63 to R65). An RST or IDLE line gives no level for `in_data`; the model drives
`unsampledInData` (DESIGN CHOICE, log entry 14). -/
def Line.expand : Line → List Stimulus
  | .rst => [.edge (ctrlWord true false) unsampledInData]
  | .idle n => List.replicate n (.edge (ctrlWord false false) unsampledInData)
  | .rpt w => [reportStimulus w]
  | .diag a => [.diagPort a]
  | .rptc op v => [clearStimulus op v]
  | .co2c v => [clearStimulus Config.opCo2 v]
  | .tempc v => [clearStimulus Config.opTemp v]
  | .rpte op v => [obfuscatedStimulus op v]
  | .co2e v => [obfuscatedStimulus Config.opCo2 v]
  | .tempe v => [obfuscatedStimulus Config.opTemp v]

/-- The stimuli of a program (R63). -/
def expandProgram (p : List Line) : List Stimulus := p.flatMap Line.expand

/-- The result of an accepted report, as R140 lists it. -/
structure Result where
  err : Bool
  path : Bool
  opcode : Byte
  value : Value
  raw : PortWord
  decoded : PortWord
  sampleValid : Bool
  sampleCo2 : Value
  sampleTemp : Value
  deriving DecidableEq, Repr

/-- The result on the output ports in the cycle after a report's edge (R140). -/
def State.result (s : State) : Result :=
  ⟨s.out.oe, s.out.op, s.out.oop, s.out.oval, s.out.oraw, s.out.odec, s.out.sv, s.out.sco2, s.out.stemp⟩

/-- Whether a stimulus is an edge at which a report is accepted (R18, R118). -/
def acceptsReport (x : Stimulus) : Bool := (decode x).report?.isSome

/-- Whether a stimulus is a reset edge (R128). -/
def isResetLine (x : Stimulus) : Bool := (decode x).isReset

/-- `n` steps: the results of the accepted reports in order, and the state reached (R140). A step that stopped would
end the run; none does. -/
def runLines (n : Nat) (s : State) : List Result × State :=
  match n with
  | 0 => ([], s)
  | n + 1 =>
    match step s with
    | .next t =>
      let (rs, u) := runLines n t
      (if acceptsReport s.nextLine then t.result :: rs else rs, u)
    | .fault _ => ([], s)
    | .refused _ => ([], s)

/-- A state with these lines as the host's lines to come. -/
def State.withLines (s : State) (xs : List Stimulus) : State := { s with lines := xs }

/-- The whole run of a list of stimuli from a state. -/
def runAll (xs : List Stimulus) (s : State) : List Result × State := runLines xs.length (s.withLines xs)

/-- What is observed of a run: the results, and the final table as read through the diagnostic port (R140). -/
structure Observation where
  results : List Result
  table : List Entry
  deriving DecidableEq, Repr

/-- The entry the diagnostic port shows for `a` (R103). -/
def State.diagRead (s : State) (a : Byte) : Entry := ⟨(s.driveDiag a).diagValid, (s.driveDiag a).diagValue⟩

/-- The 256 entries as the diagnostic port shows them, from address 0 (R103, R140). -/
def State.diagTable (s : State) : List Entry :=
  (List.range Config.tableSize).map fun a => s.diagRead (BitVec.ofNat 8 a)

/-- The observation of a program's run (R140): it opens with a reset edge of its own (R130). -/
def observation (p : List Line) : Observation :=
  let r := runAll (expandProgram p) State.reset
  ⟨r.1, r.2.diagTable⟩

/-- A result as the notation prints it (R66), as data. -/
inductive Printed where
  | out (err path : Bool) (op : Byte) (val : Value) (sample : Option Sample)
  | chkerr (raw att : PortWord)
  deriving DecidableEq, Repr

/-- What R66 prints of a result; `none` in place of the sample is the mark `no sample`. -/
def Result.printed (r : Result) : Printed :=
  if r.err then .chkerr r.raw r.decoded
  else .out r.err r.path r.opcode r.value (if r.sampleValid then some ⟨r.sampleCo2, r.sampleTemp⟩ else none)

/-- The document's property "Clear-report shortcut" of a result (R142). -/
def Result.clearShortcut (r : Result) : Bool := !r.path && r.decoded == r.raw

/-- The document's property "Corruption rejection" of a result (R142). -/
def Result.corruptionRejected (r : Result) : Bool := r.err

/-- The value of the latest successful result of opcode `op` in a list of results, oldest first. -/
def latestValue (op : Byte) (rs : List Result) : Option Value :=
  match rs with
  | [] => none
  | r :: rs => (latestValue op rs).or (if !r.err && r.opcode == op then some r.value else none)

/-- The document's property "Aggregator emission gating" of the successive results of a session (R142, V-SRC-2): a
result carries a sample exactly when it is successful and both channels have been reported up to and with it; else the
sample fields are 0. -/
def emissionGating (rs : List Result) : Prop :=
  ∀ (before : List Result) (r : Result) (later : List Result), rs = before ++ r :: later →
    (r.sampleValid = true ↔ r.err = false ∧ (latestValue Config.opCo2 (before ++ [r])).isSome = true ∧
      (latestValue Config.opTemp (before ++ [r])).isSome = true) ∧
    (r.sampleValid = false → r.sampleCo2 = 0 ∧ r.sampleTemp = 0)

/-- The document's property "Last-write-wins persistence" of the successive results of a session (R142, V-SRC-3): a
sample carries the latest value of each channel, however old. -/
def lastWriteWins (rs : List Result) : Prop :=
  ∀ (before : List Result) (r : Result) (later : List Result), rs = before ++ r :: later → r.sampleValid = true →
    latestValue Config.opCo2 (before ++ [r]) = some r.sampleCo2 ∧
    latestValue Config.opTemp (before ++ [r]) = some r.sampleTemp

end Sys2Proof.Machine
end

