-- ==== Sys2Proof/Safety.lean ====
section
/-! DEFINITION. What a good state and a good run of the block are, in the terms the claims use. -/

namespace Sys2Proof.Machine

/-- The output registers tell of the last accepted report, whose bytes are in ORAW, and of the table as it has stood
since (42_demux.md R101, 60_exceptions.md R113): a Checksum Error's registers if it failed both checks, else its
result and, with both channels known, the sample; SV only in a cycle with OV. -/
def Outputs.tellOf (o : Outputs) (ct : Memory) : Prop :=
  match decodeReport Config.key (unpack o.oraw) with
  | .err raw att => o = { errorOutputs raw att with ov := o.ov }
  | .ok path dec opcode value =>
    ct.read opcode = ⟨true, value⟩ ∧
    o = { successOutputs (unpack o.oraw) path dec opcode value (emissionGate ct) with
          ov := o.ov
          sv := o.ov && bothKnown ct }

/-- The invariant of the block: the table is in canonical form and lists known channels only; and either nothing has
been accepted since the last reset (10_state.md R21, R25) or the output registers tell of the last report. -/
def State.Inv (s : State) : Prop :=
  s.ct.wf = true ∧ s.ct.allKnown = true ∧
  ((s.ct = [] ∧ s.out = Outputs.reset) ∨ s.out.tellOf s.ct)

/-- A channel is known (R99). -/
def State.known (s : State) (op : Byte) : Bool := (s.ct.read op).valid

/-- The block's own state, CT and OUT (R36), apart from what the host puts on its inputs. -/
def State.block (s : State) : Memory × Outputs := (s.ct, s.out)

/-- The host keeps the duty to start a session (R132, R130): the first line is a reset edge. -/
def startsSession (xs : List Stimulus) : Bool :=
  match xs with
  | [] => false
  | x :: _ => isResetLine x

/-- The lines that count for the results of a run: accepted reports and reset edges (R138). -/
def countsForResults (x : Stimulus) : Bool := acceptsReport x || isResetLine x

/-- The line with level `w` on `in_data` where its edge samples none, at a reset or idle edge (R18, D19). -/
def withUnsampledLevel (w : PortWord) (x : Stimulus) : Stimulus :=
  match x with
  | .edge ctrl w' => if ctrlRst ctrl || !ctrlInValid ctrl then .edge ctrl w else .edge ctrl w'
  | .diagPort a => .diagPort a
  | .transformPort d => .transformPort d
  | .validatorPort d => .validatorPort d

/-- A report line whose report raises the Checksum Error (R112). -/
def isErrorLine (x : Stimulus) : Bool := (decode x).isChkerr

/-- The stage formulas of the transform, as the spec writes them on integers (40_transform.md R68 to R72): what `out`
must be for a key and a report. -/
def FollowsStages (key data out : Report) : Prop :=
  ∃ p1 p2 p3 : Fin 8 → Nat,
    (∀ i, p1 (Config.shuffle i) = (data.get i).toNat) ∧
    (∀ i, p2 i = p1 i ^^^ (key.get i).toNat) ∧
    (∀ i, p3 i = ((p2 i >>> 3) ||| (p2 (i - 1) <<< 5)) &&& 0xFF) ∧
    ∀ i, (out.get i).toNat =
      (0x100 + p3 i - ((((Config.cstate.get i).toNat >>> 4) ||| ((Config.cstate.get i).toNat <<< 4)) &&& 0xFF)) &&& 0xFF

/-- The formulas of the derived inverse, on integers (R76): what `r` must be for a key and a plain report. -/
def FollowsInverse (key p r : Report) : Prop :=
  ∃ q3 q2 q1 : Fin 8 → Nat,
    (∀ i, q3 i = ((p.get i).toNat + (ctmp.get i).toNat) % 256) ∧
    (∀ i, q2 i = ((q3 i &&& 0x1F) <<< 3) ||| (q3 (i + 1) >>> 5)) ∧
    (∀ i, q1 i = q2 i ^^^ (key.get i).toNat) ∧
    ∀ i, (r.get i).toNat = q1 (Config.shuffle i)

end Sys2Proof.Machine
end

