-- ==== Sys2Proof/Certificates/Slice0/Obligations.lean ====
section
/-! DEFINITION. What is claimed of the block, for the provers. Each docstring names the rule of spec/ it formalises. -/

open Sys2Proof Sys2Proof.Machine

/-- R128: a reset edge, whatever stands on `in_valid` and `in_data`, leaves every entry unseen and every output
register 0, and changes nothing else but the levels it puts on its inputs. -/
def Obligations.ResetEdgeClearsBlock : Prop :=
  ∀ (v : Bool) (w : PortWord) (s : State), ∃ t, exec (.rst v w) s = .next t ∧
    (∀ a, t.ct.read a = ⟨false, 0⟩) ∧
    (∀ a, t.diagRead a = ⟨false, 0⟩) ∧
    t.out = { ov := false, oe := false, op := false, oop := 0, oval := 0, oraw := 0, odec := 0,
              sv := false, sco2 := 0, stemp := 0 } ∧
    t.pins = ⟨true, v, w, s.pins.diagAddr⟩ ∧ t.lines = s.lines

/-- R129, its first sentence: any number of reset edges in a row, at least one, leaves the block in the state of one. -/
def Obligations.ResetEdgesInARowAreOne : Prop :=
  ∀ (xs : List (Bool × PortWord)) (s : State), xs ≠ [] →
    (runAll (xs.map fun p => Stimulus.edge (ctrlWord true p.1) p.2) s).2.block = ([], Outputs.reset) ∧
    (runAll (xs.map fun p => Stimulus.edge (ctrlWord true p.1) p.2) s).1 = []

/-- R102: an idle edge clears OV and SV and changes nothing else of the block, and no later result depends on it. -/
def Obligations.IdleEdgeClearsPulsesOnly : Prop :=
  ∀ (w : PortWord) (s : State), ∃ t, exec (.idle w) s = .next t ∧
    t.ct = s.ct ∧ t.out = { s.out with ov := false, sv := false } ∧
    t.pins = ⟨false, false, w, s.pins.diagAddr⟩ ∧ t.lines = s.lines ∧
    ∀ xs, (runAll xs t).1 = (runAll xs s).1 ∧ (runAll xs t).2.ct = (runAll xs s).2.ct

/-- R103, R135: the diagnostic read shows the entry, takes no edge and has no side effect; around a report edge it
shows the table before the report's write, and the write from the next cycle on. -/
def Obligations.DiagReadShowsEntryWithoutEdge : Prop :=
  (∀ (a : Byte) (s : State), ∃ t, exec (.diag a) s = .next t ∧
    t.diagValid = (s.ct.read a).valid ∧ t.diagValue = (s.ct.read a).value ∧
    t.ct = s.ct ∧ t.out = s.out ∧ t.pins = { s.pins with diagAddr := a } ∧ t.lines = s.lines) ∧
  (∀ s : State, s.diagValid = (s.ct.read s.pins.diagAddr).valid ∧ s.diagValue = (s.ct.read s.pins.diagAddr).value) ∧
  (∀ (i : Instr) (raw : Report) (s t : State) (a : Byte), i.report? = some raw → exec i s = .next t →
    s.diagRead a = s.ct.read a ∧
    t.diagRead a =
      match decodeReport Config.key raw with
      | .ok _ _ op v => if a = op then ⟨true, v⟩ else s.ct.read a
      | .err _ _ => s.ct.read a)

/-- R67: DECRYPT on a report gives the output of the four stages under `KEY`, for every report, with no side effect. That
DECRYPT is a line of its own, which takes no edge and leaves its operand on `in_data`, is the model's choice (log
entry 4): the spec evaluates the unit in report cycles. -/
def Obligations.DecryptRowGivesStages : Prop :=
  ∀ (data : Report) (s : State), ∃ t, exec (.decrypt data) s = .next t ∧
    FollowsStages Config.key data t.transformOut ∧
    t.ct = s.ct ∧ t.out = s.out ∧ t.pins = { s.pins with inData := pack data } ∧ t.lines = s.lines

/-- R68 to R72: the transform is the four stage formulas on integers, for every key and every report. -/
def Obligations.TransformFollowsStageFormulas : Prop :=
  (∀ key data : Report, FollowsStages key data (decrypt key data)) ∧
  (∀ data : Report, phase1 data =
    ⟨data.get 2, data.get 4, data.get 0, data.get 7, data.get 1, data.get 6, data.get 5, data.get 3⟩) ∧
  ctmp = ⟨0x84, 0x47, 0x56, 0xD6, 0x07, 0x93, 0x93, 0x56⟩

/-- CHKSUM's bit is the terminator test and the sum test, the sum taken without overflow (R78, R79); no side effect. That
CHKSUM is a line of its own, which takes no edge and leaves its operand on `in_data`, is the model's choice (log
entry 4): the spec evaluates the unit in report cycles (R80). -/
def Obligations.ChksumRowTestsTerminatorAndSum : Prop :=
  ∀ (d : Report) (s : State), ∃ t, exec (.chksum d) s = .next t ∧
    (t.rawCheck = true ↔
      d.get 4 = 0x0D ∧ ((d.get 0).toNat + (d.get 1).toNat + (d.get 2).toNat) % 256 = (d.get 3).toNat) ∧
    (d.get 0).toNat + (d.get 1).toNat + (d.get 2).toNat ≤ 765 ∧
    t.ct = s.ct ∧ t.out = s.out ∧ t.pins = { s.pins with inData := pack d } ∧ t.lines = s.lines

/-- R94: a CO2 report stores its value and emits exactly when the temperature is known. -/
def Obligations.Co2ReportStoresAndEmits : Prop :=
  ∀ (raw dec : Report) (path : DecodePath) (v : Value) (s : State),
    decodeReport Config.key raw = .ok path dec 0x50 v →
    ∃ t, exec (.rptCo2 raw) s = .next t ∧
      (∀ a, t.ct.read a = if a = 0x50 then ⟨true, v⟩ else s.ct.read a) ∧
      t.out = { ov := true, oe := false, op := path.bit, oop := 0x50, oval := v, oraw := pack raw, odec := pack dec,
                sv := (s.ct.read 0x42).valid
                sco2 := if (s.ct.read 0x42).valid then v else 0
                stemp := if (s.ct.read 0x42).valid then (s.ct.read 0x42).value else 0 } ∧
      t.pins = ⟨false, true, pack raw, s.pins.diagAddr⟩ ∧ t.lines = s.lines

/-- R95: a temperature report stores its value and emits exactly when CO2 is known. -/
def Obligations.TempReportStoresAndEmits : Prop :=
  ∀ (raw dec : Report) (path : DecodePath) (v : Value) (s : State),
    decodeReport Config.key raw = .ok path dec 0x42 v →
    ∃ t, exec (.rptTemp raw) s = .next t ∧
      (∀ a, t.ct.read a = if a = 0x42 then ⟨true, v⟩ else s.ct.read a) ∧
      t.out = { ov := true, oe := false, op := path.bit, oop := 0x42, oval := v, oraw := pack raw, odec := pack dec,
                sv := (s.ct.read 0x50).valid
                sco2 := if (s.ct.read 0x50).valid then (s.ct.read 0x50).value else 0
                stemp := if (s.ct.read 0x50).valid then v else 0 } ∧
      t.pins = ⟨false, true, pack raw, s.pins.diagAddr⟩ ∧ t.lines = s.lines

/-- R96: a report with an unknown opcode stores its value, never makes a sample possible, and emits the stored pair
where both known channels are present. -/
def Obligations.UnknownReportStoresAndEmitsStoredPair : Prop :=
  ∀ (raw dec : Report) (path : DecodePath) (op : Byte) (v : Value) (s : State), op ≠ 0x50 → op ≠ 0x42 →
    decodeReport Config.key raw = .ok path dec op v →
    ∃ t, exec (.rptUnknown raw) s = .next t ∧
      (∀ a, t.ct.read a = if a = op then ⟨true, v⟩ else s.ct.read a) ∧
      t.out = { ov := true, oe := false, op := path.bit, oop := op, oval := v, oraw := pack raw, odec := pack dec,
                sv := (s.ct.read 0x50).valid && (s.ct.read 0x42).valid
                sco2 := if (s.ct.read 0x50).valid && (s.ct.read 0x42).valid then (s.ct.read 0x50).value else 0
                stemp := if (s.ct.read 0x50).valid && (s.ct.read 0x42).valid then (s.ct.read 0x42).value else 0 } ∧
      t.pins = ⟨false, true, pack raw, s.pins.diagAddr⟩ ∧ t.lines = s.lines

/-- R113, R100: a report that fails both checks loads the error outputs and leaves the table as it was. -/
def Obligations.ChecksumErrorLoadsErrorOutputs : Prop :=
  ∀ (raw : Report) (s : State), checksumOk raw = false → checksumOk (decrypt Config.key raw) = false →
    ∃ t, exec (.rptChkerr raw) s = .next t ∧ t.ct = s.ct ∧
      t.out = { ov := true, oe := true, op := true, oop := 0, oval := 0, oraw := pack raw
                odec := pack (decrypt Config.key raw), sv := false, sco2 := 0, stemp := 0 } ∧
      t.pins = ⟨false, true, pack raw, s.pins.diagAddr⟩ ∧ t.lines = s.lines

/-- R101, R97: the report transaction, for every report and every report constructor: the error outputs, or the store,
the result and the sample of the updated table. -/
def Obligations.ReportTransactionLoadsResult : Prop :=
  ∀ (i : Instr) (raw : Report) (s : State), i.report? = some raw →
    ∃ t, exec i s = .next t ∧ t.pins = ⟨false, true, pack raw, s.pins.diagAddr⟩ ∧ t.lines = s.lines ∧
      match decodeReport Config.key raw with
      | .err raw' att =>
        t.ct = s.ct ∧
        t.out = { ov := true, oe := true, op := true, oop := 0, oval := 0, oraw := pack raw', odec := pack att,
                  sv := false, sco2 := 0, stemp := 0 }
      | .ok path dec op v =>
        (∀ a, t.ct.read a = if a = op then ⟨true, v⟩ else s.ct.read a) ∧
        t.out = { ov := true, oe := false, op := path.bit, oop := op, oval := v, oraw := pack raw, odec := pack dec,
                  sv := (t.ct.read 0x50).valid && (t.ct.read 0x42).valid
                  sco2 := if (t.ct.read 0x50).valid && (t.ct.read 0x42).valid then (t.ct.read 0x50).value else 0
                  stemp := if (t.ct.read 0x50).valid && (t.ct.read 0x42).valid then (t.ct.read 0x42).value else 0 }

/-- R112: a report raises the Checksum Error exactly when both checks fail; a reset or idle edge raises nothing. -/
def Obligations.ChecksumErrorExactlyWhenBothChecksFail : Prop :=
  ∀ (i : Instr) (s : State), ∃ t, exec i s = .next t ∧
    (∀ raw, i.report? = some raw →
      ((t.out.ov = true ∧ t.out.oe = true) ↔
        (checksumOk raw = false ∧ checksumOk (decrypt Config.key raw) = false))) ∧
    (i.isClocked = true → i.report? = none → t.out.ov = false)

/-- R59: the class of a report cycle, with the masks of the class table, and the transaction it decodes to. -/
def Obligations.ReportClassFollowsTable : Prop :=
  ∀ raw : Report,
    (decode (.edge (ctrlWord false true) (pack raw)) =
      match classify raw with
      | .chkerr => .rptChkerr raw
      | .co2 => .rptCo2 raw
      | .temp => .rptTemp raw
      | .unknown => .rptUnknown raw) ∧
    (classify raw = .chkerr ↔ checksumOk raw = false ∧ checksumOk (decrypt Config.key raw) = false) ∧
    (classify raw = .co2 ↔ ∃ path dec op v, decodeReport Config.key raw = .ok path dec op v ∧
      pack dec &&& 0xFF000000FF000000 = 0x500000000D000000 ∧ sumOf dec % 256 = (dec.get 3).toNat) ∧
    (classify raw = .temp ↔ ∃ path dec op v, decodeReport Config.key raw = .ok path dec op v ∧
      pack dec &&& 0xFF000000FF000000 = 0x420000000D000000 ∧ sumOf dec % 256 = (dec.get 3).toNat) ∧
    (classify raw = .unknown ↔ ∃ path dec op v, decodeReport Config.key raw = .ok path dec op v ∧
      pack dec &&& 0x00000000FF000000 = 0x000000000D000000 ∧ sumOf dec % 256 = (dec.get 3).toNat ∧
      dec.get 0 ≠ 0x50 ∧ dec.get 0 ≠ 0x42)

/-- R83, R85 to R88: the decoder's policy, and the fields it extracts. -/
def Obligations.DecoderTriesClearThenTransformThenError : Prop :=
  ∀ raw : Report,
    (checksumOk raw = true → decodeReport Config.key raw = .ok .clear raw (raw.get 0)
      (BitVec.ofNat 16 ((raw.get 1).toNat * 256 + (raw.get 2).toNat))) ∧
    (∀ cand, cand = decrypt Config.key raw → checksumOk raw = false → checksumOk cand = true →
      decodeReport Config.key raw = .ok .transformed cand (cand.get 0)
        (BitVec.ofNat 16 ((cand.get 1).toNat * 256 + (cand.get 2).toNat))) ∧
    (checksumOk raw = false → checksumOk (decrypt Config.key raw) = false →
      decodeReport Config.key raw = .err raw (decrypt Config.key raw))

/-- R89: where both checks hold the clear path wins; its example. -/
def Obligations.ClearPathWinsWhenBothPass : Prop :=
  (∀ raw : Report, checksumOk raw = true → checksumOk (decrypt Config.key raw) = true →
    decodeReport Config.key raw = .ok .clear raw (opcodeOf raw) (valueOf raw)) ∧
  checksumOk ⟨0xA2, 0xE2, 0x6D, 0xF1, 0x0D, 0x1B, 0x15, 0xEA⟩ = true ∧
  decrypt Config.key ⟨0xA2, 0xE2, 0x6D, 0xF1, 0x0D, 0x1B, 0x15, 0xEA⟩ =
    ⟨0x71, 0xF2, 0x16, 0x79, 0x0D, 0xB3, 0x45, 0x96⟩ ∧
  checksumOk ⟨0x71, 0xF2, 0x16, 0x79, 0x0D, 0xB3, 0x45, 0x96⟩ = true ∧
  decodeReport Config.key ⟨0xA2, 0xE2, 0x6D, 0xF1, 0x0D, 0x1B, 0x15, 0xEA⟩ =
    .ok .clear ⟨0xA2, 0xE2, 0x6D, 0xF1, 0x0D, 0x1B, 0x15, 0xEA⟩ 0xA2 0xE26D

/-- R51, R118: the order of the events of one rising edge: reset, then the report (clear, transform, error), then idle. -/
def Obligations.OneEdgeTakesResetThenReportThenIdle : Prop :=
  ∀ (ctrl : BitVec 2) (w : PortWord) (rest : List Stimulus) (s : State), s.lines = .edge ctrl w :: rest →
    ∃ t, step s = .next t ∧ t.lines = rest ∧
      if ctrl.getLsbD 1 = true then t.block = ([], Outputs.reset)
      else if ctrl.getLsbD 0 = true then
        t.out.ov = true ∧ t.out.oraw = w ∧
        if checksumOk (unpack w) = true then
          t.out.oe = false ∧ t.out.op = false ∧ t.out.odec = w ∧
          t.ct = s.ct.write (opcodeOf (unpack w)) ⟨true, valueOf (unpack w)⟩
        else if checksumOk (decrypt Config.key (unpack w)) = true then
          t.out.oe = false ∧ t.out.op = true ∧ t.out.odec = pack (decrypt Config.key (unpack w)) ∧
          t.ct = s.ct.write (opcodeOf (decrypt Config.key (unpack w))) ⟨true, valueOf (decrypt Config.key (unpack w))⟩
        else t.out = errorOutputs (unpack w) (decrypt Config.key (unpack w)) ∧ t.ct = s.ct
      else t.block = (s.ct, { s.out with ov := false, sv := false })

/-- Decode and encode agree on every well-formed transaction: no operand bit is dropped (R51, R59, R63). -/
def Obligations.DecodeOfEncodeIsTheTransaction : Prop :=
  ∀ i : Instr, i.wellFormed = true → decode (encode i) = i

/-- Each stimulus has one meaning, and encoding what it decodes to gives it back (R51, R61). -/
def Obligations.EncodeOfDecodeIsTheStimulus : Prop :=
  ∀ x : Stimulus, (decode x).wellFormed = true ∧ encode (decode x) = x

/-- The byte form of a stimulus is read back whole (R38, R42; the byte form is the model's own, log entry 6). -/
def Obligations.StimulusBytesReadBack : Prop :=
  ∀ x : Stimulus, stimulusOfBytes (bytesOfStimulus x).1 (bytesOfStimulus x).2 = .ok x

/-- R42: bytes that are not exactly one whole report cannot be presented as one (byte form: log entry 6). -/
def Obligations.PartialReportsAreRejected : Prop :=
  ∀ (c : Byte) (bs : List Byte), bs.length ≠ 8 →
    decodeBytes .transform bs = .error .notAWholeReport ∧ decodeBytes .validator bs = .error .notAWholeReport ∧
    (c.toNat < 4 → decodeBytes .clocked (c :: bs) = .error .notAWholeReport)

/-- Words written out by hand from R51, R53 and the vectors of 95_test_vectors.md decode to what they stand for. -/
def Obligations.WrittenWordsDecodeRight : Prop :=
  decode (.edge 0b10 0x77E4F6200E46BFC2) = .rst false 0x77E4F6200E46BFC2 ∧
  decode (.edge 0b11 0x77E4F6200E46BFC2) = .rst true 0x77E4F6200E46BFC2 ∧
  decode (.edge 0b00 0x1) = .idle 0x1 ∧
  decode (.edge 0b01 0x5002BC0E0D000000) = .rptCo2 ⟨0x50, 0x02, 0xBC, 0x0E, 0x0D, 0, 0, 0⟩ ∧
  decode (.edge 0b01 0x57E466208E46BFB2) = .rptCo2 ⟨0x57, 0xE4, 0x66, 0x20, 0x8E, 0x46, 0xBF, 0xB2⟩ ∧
  decode (.edge 0b01 0x77E4F6200E46BFC2) = .rptTemp ⟨0x77, 0xE4, 0xF6, 0x20, 0x0E, 0x46, 0xBF, 0xC2⟩ ∧
  decode (.edge 0b01 0xDCE460200D46BFBA) = .rptUnknown ⟨0xDC, 0xE4, 0x60, 0x20, 0x0D, 0x46, 0xBF, 0xBA⟩ ∧
  decode (.edge 0b01 0x57E466208E46BFB3) = .rptChkerr ⟨0x57, 0xE4, 0x66, 0x20, 0x8E, 0x46, 0xBF, 0xB3⟩ ∧
  decode (.diagPort 0x6D) = .diag 0x6D

/-- R38: the packing of a report on a 64-bit port, as a number and byte by byte. -/
def Obligations.ReportPackingIsByteZeroFirst : Prop :=
  (∀ d : Report, (pack d).toNat =
    (d.get 0).toNat * 256 ^ 7 + (d.get 1).toNat * 256 ^ 6 + (d.get 2).toNat * 256 ^ 5 + (d.get 3).toNat * 256 ^ 4 +
    (d.get 4).toNat * 256 ^ 3 + (d.get 5).toNat * 256 ^ 2 + (d.get 6).toNat * 256 + (d.get 7).toNat) ∧
  (∀ (w : PortWord) (i : Fin 8), ((unpack w).get i).toNat = w.toNat / 256 ^ (7 - i.val) % 256) ∧
  pack ⟨0x50, 0x02, 0xBC, 0x0E, 0x0D, 0, 0, 0⟩ = 0x5002BC0E0D000000

/-- A step takes the host's next line, decodes it and executes it (R17, R63). With no line left it is an idle edge
(the model's choice, log entry 2). -/
def Obligations.StepRunsTheDecodedLine : Prop :=
  (∀ (s : State) (x : Stimulus) (rest : List Stimulus), s.lines = x :: rest →
    step s = exec (decode x) { s with lines := rest }) ∧
  (∀ s : State, s.lines = [] → step s = exec (.idle s.pins.inData) s)

/-- R141, R116: every step runs, from every state, and `n` steps take exactly the next `n` lines. -/
def Obligations.EveryRunTakesItsSteps : Prop :=
  ∀ (n : Nat) (s : State), ∃ t : State, Host.Core.run Sys2Proof.core n s = .next t ∧ t.lines = s.lines.drop n

/-- The invariant: the table stays canonical and lists known channels only, and the output registers always tell of the
last accepted report and the table (R21, R22, R26, R97, R101, R102, R113, R128). -/
def Obligations.StepKeepsInvariant : Prop :=
  ∀ s t : State, s.Inv → step s = .next t → t.Inv

/-- The invariant holds right after reset (R21, R25). -/
def Obligations.ResetMeetsInvariant : Prop := State.reset.Inv

/-- R76: the transform is a bijection for every key, and `enc` is its inverse, by the formulas the spec gives it. -/
def Obligations.TransformIsABijection : Prop :=
  ∀ key : Report, Function.Bijective (decrypt key) ∧
    ∀ p : Report, FollowsInverse key p (enc key p) ∧ decrypt key (enc key p) = p ∧ enc key (decrypt key p) = p

/-- R75: stage 3 is a 64-bit rotate right by 3 of the packed report. -/
def Obligations.StageThreeIsARotate : Prop :=
  ∀ p2 : Report, pack (phase3 p2) = (pack p2 >>> 3) ||| (pack p2 <<< 61)

/-- R74: the shuffle is its own inverse, so the scatter of stage 1 is a gather. -/
def Obligations.ShuffleIsAnInvolution : Prop :=
  (∀ i, Config.shuffle (Config.shuffle i) = i) ∧
  Config.shuffle 0 = 2 ∧ Config.shuffle 1 = 4 ∧ Config.shuffle 3 = 7 ∧ Config.shuffle 5 = 6 ∧
  ∀ (data : Report) (j : Fin 8), (phase1 data).get j = data.get (Config.shuffle j)

/-- R81: an output byte of the transform depends on two input bytes, and on both of them; the validator reads bytes
0 to 4. -/
def Obligations.OutputByteDependsOnTwoInputBytes : Prop :=
  (∀ (key d d' : Report) (i : Fin 8), d.get (Config.shuffle i) = d'.get (Config.shuffle i) →
    d.get (Config.shuffle (i - 1)) = d'.get (Config.shuffle (i - 1)) →
    (decrypt key d).get i = (decrypt key d').get i) ∧
  (∀ i : Fin 8, Config.shuffle i ≠ Config.shuffle (i - 1)) ∧
  (∀ (key d : Report) (i : Fin 8),
    (∃ b, (decrypt key (d.set (Config.shuffle i) b)).get i ≠ (decrypt key d).get i) ∧
    (∃ b, (decrypt key (d.set (Config.shuffle (i - 1)) b)).get i ≠ (decrypt key d).get i)) ∧
  (∀ d d' : Report, (∀ i : Fin 8, i.val ≤ 4 → d.get i = d'.get i) → checksumOk d = checksumOk d')

/-- R77: the transform is not self-inverse; its example fails the check. -/
def Obligations.TransformIsNotSelfInverse : Prop :=
  (∃ d : Report, decrypt Config.key (decrypt Config.key d) ≠ d) ∧
  decrypt Config.key ⟨0x50, 0x02, 0xBC, 0x0E, 0x0D, 0, 0, 0⟩ = ⟨0x8B, 0xD2, 0x1C, 0x3C, 0x41, 0xB1, 0xE8, 0x3D⟩ ∧
  checksumOk ⟨0x8B, 0xD2, 0x1C, 0x3C, 0x41, 0xB1, 0xE8, 0x3D⟩ = false

/-- R64: a clear report has the bytes the rule gives, always passes the check, and decodes unmodified. -/
def Obligations.ClearReportsDecodeUnmodified : Prop :=
  ∀ (op : Byte) (v : Value),
    (plain op v).get 0 = op ∧ ((plain op v).get 1).toNat = v.toNat / 256 ∧ ((plain op v).get 2).toNat = v.toNat % 256 ∧
    ((plain op v).get 3).toNat = (op.toNat + v.toNat / 256 + v.toNat % 256) % 256 ∧ (plain op v).get 4 = 0x0D ∧
    (plain op v).get 5 = 0 ∧ (plain op v).get 6 = 0 ∧ (plain op v).get 7 = 0 ∧
    checksumOk (plain op v) = true ∧
    decodeReport Config.key (plain op v) = .ok .clear (plain op v) op v ∧
    Line.expand (.rptc op v) = [.edge 0b01 (pack (plain op v))] ∧
    Line.expand (.co2c v) = Line.expand (.rptc 0x50 v) ∧ Line.expand (.tempc v) = Line.expand (.rptc 0x42 v)

/-- R65: an obfuscated report decodes to its opcode and value exactly when its raw form fails the clear check; else the
raw bytes are taken as a clear report, and its opcode and value are never the obfuscated ones. -/
def Obligations.ObfuscatedReportsDecodeUnlessTheyLookClear : Prop :=
  ∀ (op : Byte) (v : Value),
    (checksumOk (enc Config.key (plain op v)) = false →
      decodeReport Config.key (enc Config.key (plain op v)) = .ok .transformed (plain op v) op v) ∧
    (checksumOk (enc Config.key (plain op v)) = true →
      decodeReport Config.key (enc Config.key (plain op v)) =
        .ok .clear (enc Config.key (plain op v)) (opcodeOf (enc Config.key (plain op v)))
          (valueOf (enc Config.key (plain op v))) ∧
      (opcodeOf (enc Config.key (plain op v)), valueOf (enc Config.key (plain op v))) ≠ (op, v)) ∧
    Line.expand (.rpte op v) = [.edge 0b01 (pack (enc Config.key (plain op v)))] ∧
    Line.expand (.co2e v) = Line.expand (.rpte 0x50 v) ∧ Line.expand (.tempe v) = Line.expand (.rpte 0x42 v) ∧
    decodeReport Config.key (enc Config.key (plain 0x50 21005)) =
      .ok .clear ⟨0xDC, 0xE4, 0x60, 0x20, 0x0D, 0x46, 0xBF, 0xBA⟩ 0xDC 0xE460

/-- The clear check passes 1 report in 65536 (R90's corrected rate): for any six other bytes, exactly one pair of
checksum and terminator passes. -/
def Obligations.ClearCheckPassesOneInSixtyFiveThousand : Prop :=
  ∀ b0 b1 b2 b5 b6 b7 : Byte, ∃! p : Byte × Byte, checksumOk ⟨b0, b1, b2, p.1, p.2, b5, b6, b7⟩ = true

/-- R22: the table is written in exactly two ways, over all transactions. -/
def Obligations.TableIsWrittenInTwoWays : Prop :=
  ∀ s t : State, step s = .next t →
    if isResetLine s.nextLine = true then ∀ a, t.ct.read a = ⟨false, 0⟩
    else match (decode s.nextLine).report? with
      | none => t.ct = s.ct
      | some raw =>
        match decodeReport Config.key raw with
        | .err _ _ => t.ct = s.ct
        | .ok _ _ op v => ∀ a, t.ct.read a = if a = op then ⟨true, v⟩ else s.ct.read a

/-- R99: a channel goes from unseen to known only by the first successful report of its opcode, and back only by a
reset, which takes every channel back. -/
def Obligations.ChannelStateMachine : Prop :=
  ∀ (s t : State), step s = .next t →
    (∀ a, s.known a = false → t.known a = true →
      ∃ raw path dec v, (decode s.nextLine).report? = some raw ∧ decodeReport Config.key raw = .ok path dec a v) ∧
    (∀ a, s.known a = true → t.known a = false → isResetLine s.nextLine = true) ∧
    (∀ raw path dec a v, (decode s.nextLine).report? = some raw → decodeReport Config.key raw = .ok path dec a v →
      t.known a = true) ∧
    (isResetLine s.nextLine = true → ∀ a, t.known a = false)

/-- R98: a channel's value changes only when a report of its opcode overwrites it, or at reset; it never expires. -/
def Obligations.ValuesPersist : Prop :=
  ∀ (xs : List Stimulus) (s : State) (a : Byte),
    (∀ x ∈ xs, isResetLine x = false ∧
      ∀ raw path dec v, (decode x).report? = some raw → decodeReport Config.key raw ≠ .ok path dec a v) →
    (runAll xs s).2.ct.read a = s.ct.read a

/-- R110: once both channels are known, every later successful report emits until the next reset, a Checksum Error
emits nothing and changes none of this; and only a reset returns the channels to unseen. -/
def Obligations.WarmedUpBlockAlwaysEmits : Prop :=
  ∀ (xs : List Stimulus) (s : State), bothKnown s.ct = true → (∀ x ∈ xs, isResetLine x = false) →
    (∀ r ∈ (runAll xs s).1, r.sampleValid = !r.err) ∧ bothKnown (runAll xs s).2.ct = true

/-- R138: no result depends on time: the results and the final table are those of the accepted reports and resets
alone; from a reset on they depend on nothing before it; and any number of idle edges changes only the two pulses. -/
def Obligations.ResultsDoNotDependOnTime : Prop :=
  (∀ (xs : List Stimulus) (s : State),
    (runAll xs s).1 = (runAll (xs.filter countsForResults) s).1 ∧
    (runAll xs s).2.ct = (runAll (xs.filter countsForResults) s).2.ct) ∧
  (∀ (xs : List Stimulus) (s s' : State), startsSession xs = true →
    (runAll xs s).1 = (runAll xs s').1 ∧ (runAll xs s).2.block = (runAll xs s').2.block) ∧
  (∀ (n : Nat) (w : PortWord) (s : State), (runAll (List.replicate (n + 1) (.edge 0b00 w)) s).2.block =
    (s.ct, { s.out with ov := false, sv := false }))

/-- R109: what is stored under unknown opcodes never reaches a result: two tables that agree on the two known channels
give the same results, for every run. -/
def Obligations.UnknownEntriesNeverReachResults : Prop :=
  ∀ (xs : List Stimulus) (s s' : State), s.ct.read 0x50 = s'.ct.read 0x50 → s.ct.read 0x42 = s'.ct.read 0x42 →
    (runAll xs s).1 = (runAll xs s').1

/-- R114: a Checksum Error does not disturb the stream: without the failing reports, the other results and the final
table are the same. -/
def Obligations.ErrorsDoNotDisturbTheStream : Prop :=
  ∀ (xs : List Stimulus) (s : State),
    (runAll xs s).1.filter (fun r => !r.err) = (runAll (xs.filter fun x => !isErrorLine x) s).1 ∧
    (runAll xs s).2.ct = (runAll (xs.filter fun x => !isErrorLine x) s).2.ct

/-- R92: what a report decodes to never depends on the state it meets. -/
def Obligations.DecodedResultIsTheReportsOwn : Prop :=
  ∀ (i : Instr) (raw : Report) (s s' : State), i.report? = some raw →
    ∃ t t', exec i s = .next t ∧ exec i s' = .next t' ∧
      t.out.ov = t'.out.ov ∧ t.out.oe = t'.out.oe ∧ t.out.op = t'.out.op ∧ t.out.oop = t'.out.oop ∧
      t.out.oval = t'.out.oval ∧ t.out.oraw = t'.out.oraw ∧ t.out.odec = t'.out.odec

/-- R108: the same report at two edges, in any two states, writes the same entry and gives the same `out_*` values, and
with both channels known before each emits each time; at two edges in a row table and outputs repeat exactly. -/
def Obligations.RepeatedReportRepeatsItsEffect : Prop :=
  ∀ (i : Instr) (raw : Report) (s s' : State), i.report? = some raw →
    ∃ t t' u, exec i s = .next t ∧ exec i s' = .next t' ∧ exec i t = .next u ∧
      (∀ path dec op v, decodeReport Config.key raw = .ok path dec op v →
        t.ct.read op = ⟨true, v⟩ ∧ t'.ct.read op = ⟨true, v⟩ ∧
        (bothKnown s.ct = true → bothKnown s'.ct = true → t.out.sv = true ∧ t'.out.sv = true)) ∧
      (t.out.ov, t.out.oe, t.out.op, t.out.oop, t.out.oval, t.out.oraw, t.out.odec) =
        (t'.out.ov, t'.out.oe, t'.out.op, t'.out.oop, t'.out.oval, t'.out.oraw, t'.out.odec) ∧
      u.ct = t.ct ∧ u.out = t.out

/-- R26: OV and SV are pulses of the cycle after an accepted report; the other registers hold over an idle edge, and
over a reading that takes no edge all hold. -/
def Obligations.PulsesLastOneCycle : Prop :=
  ∀ (i : Instr) (s : State), ∃ t, exec i s = .next t ∧
    (i.isClocked = true → t.out.ov = i.report?.isSome) ∧
    (i.isClocked = true → t.out.sv = true → i.report?.isSome = true) ∧
    (i.isClocked = true → i.report? = none → i.isReset = false → t.out = { s.out with ov := false, sv := false }) ∧
    (i.isClocked = false → t.out = s.out)

/-- R106: a sample exists only in a cycle with `sample_valid = 1`, `out_valid = 1` and `out_err = 0`, the result of one
accepted report; the host reads it from `sample_co2` and `sample_temp` (R104). -/
def Obligations.SampleOnlyWithASuccessfulResult : Prop :=
  ∀ (s t : State), step s = .next t → (decode s.nextLine).isClocked = true → t.hostSample.isSome = true →
    t.ports.sampleValid = true ∧ t.ports.outValid = true ∧ t.ports.outErr = false ∧
    acceptsReport s.nextLine = true ∧ t.hostSample = some ⟨t.ports.sampleCo2, tempC t.ports.sampleTemp⟩

/-- R142: the document's four testable properties. On the result of a report, the clear-report shortcut holds exactly of
the reports that pass the clear check and the corruption rejection exactly of those that fail both (R83, R101, R113); on
the successive results of a session, from its reset edge on, emission gating and last-write-wins hold (R97, R98). -/
def Obligations.TestablePropertiesReadOffTheResult : Prop :=
  (∀ (i : Instr) (raw : Report) (s : State), i.report? = some raw → ∃ t, exec i s = .next t ∧
    (t.result.clearShortcut = true ↔ checksumOk raw = true) ∧
    (t.result.corruptionRejected = true ↔ checksumOk raw = false ∧ checksumOk (decrypt Config.key raw) = false)) ∧
  (∀ (x : Stimulus) (xs : List Stimulus) (s : State), isResetLine x = true → (∀ y ∈ xs, isResetLine y = false) →
    emissionGating (runAll (x :: xs) s).1 ∧ lastWriteWins (runAll (x :: xs) s).1)

/-- Two channel tables in canonical form that read the same at every address are the same data (R36, R41; the canonical
form is the model's own, log entry 5), and storing what an entry already holds changes nothing. -/
def Obligations.CanonicalTablesAreTheirContents : Prop :=
  ∀ m m' : Memory, m.wf = true → m'.wf = true →
    ((∀ a, m.read a = m'.read a) ↔ m = m') ∧
    ∀ (a : Byte) (v : Value), m.read a = ⟨true, v⟩ → m.write a ⟨true, v⟩ = m

/-- A CO2 report and a temperature report, any number of idle edges between, whatever level stands on `in_data` at each:
the second emits exactly that pair, from every state (R47, R94, R95, R97, R102, R134). -/
def Obligations.Co2ThenTempEmitsThatPair : Prop :=
  ∀ (w w' : PortWord) (path path' : DecodePath) (dec dec' : Report) (v v' : Value) (levels : List PortWord) (s : State),
    decodeReport Config.key (unpack w) = .ok path dec 0x50 v →
    decodeReport Config.key (unpack w') = .ok path' dec' 0x42 v' →
    ∃ r r', (runAll (reportStimulus w :: (levels.map (Stimulus.edge 0b00) ++ [reportStimulus w'])) s).1 = [r, r'] ∧
      r.value = v ∧ r'.value = v' ∧ r'.sampleValid = true ∧ r'.sampleCo2 = v ∧ r'.sampleTemp = v'

/-- The host's temperature is v/16 - 273.15 rounded once to 53 bits, to nearest, ties to even (R104, R105; the binary64
rules are general knowledge, log entry 7): exact where 53 bits hold the difference. Each pattern is said to be exactly a
number of units of 2^-44, with no bit of it dropped. -/
def Obligations.HostTemperatureIsCorrectlyRounded : Prop :=
  ∀ (v : Value) (k : Nat), k = Nat.log2 (tempExact v).natAbs - 52 →
    ((tempExact v).natAbs < 2 ^ 53 → binary64Is (tempC v) (tempExact v) = true) ∧
    (2 ^ 53 ≤ (tempExact v).natAbs → ∃ n : Int, binary64Is (tempC v) n = true ∧
      2 ^ k ∣ n.natAbs ∧ 2 * (n - tempExact v).natAbs ≤ 2 ^ k ∧
      (2 * (n - tempExact v).natAbs = 2 ^ k → n.natAbs / 2 ^ k % 2 = 0))

/-- R19, R24, R27: all twelve output ports after every transaction. After a reset edge all are 0 (R25); after an idle
edge the two pulses fall (R26); a reading moves the diagnostic read alone (log entry 4); after a report they show its
result and sample (R101, R113), and the diagnostic read shows the entry of the updated table. -/
def Obligations.OutputPortsShowEveryResult : Prop :=
  ∀ (i : Instr) (s : State), ∃ t, exec i s = .next t ∧
    (i.isReset = true → t.ports =
      { outValid := false, outErr := false, outPath := false, outOpcode := 0, outValue := 0, outRaw := 0,
        outDecoded := 0, sampleValid := false, sampleCo2 := 0, sampleTemp := 0, diagValid := false, diagValue := 0 }) ∧
    (i.isClocked = true → i.isReset = false → i.report? = none →
      t.ports = { s.ports with outValid := false, sampleValid := false }) ∧
    (i.isClocked = false → t.ports =
      { s.ports with diagValid := (s.ct.read t.pins.diagAddr).valid, diagValue := (s.ct.read t.pins.diagAddr).value }) ∧
    (∀ raw, i.report? = some raw →
      match decodeReport Config.key raw with
      | .err raw' att => t.ports =
        { outValid := true, outErr := true, outPath := true, outOpcode := 0, outValue := 0, outRaw := pack raw'
          outDecoded := pack att, sampleValid := false, sampleCo2 := 0, sampleTemp := 0
          diagValid := (s.ct.read s.pins.diagAddr).valid, diagValue := (s.ct.read s.pins.diagAddr).value }
      | .ok path dec op v => t.ports =
        { outValid := true, outErr := false, outPath := path.bit, outOpcode := op, outValue := v, outRaw := pack raw
          outDecoded := pack dec
          sampleValid := (t.ct.read 0x50).valid && (t.ct.read 0x42).valid
          sampleCo2 := if (t.ct.read 0x50).valid && (t.ct.read 0x42).valid then (t.ct.read 0x50).value else 0
          sampleTemp := if (t.ct.read 0x50).valid && (t.ct.read 0x42).valid then (t.ct.read 0x42).value else 0
          diagValid := if s.pins.diagAddr = op then true else (s.ct.read s.pins.diagAddr).valid
          diagValue := if s.pins.diagAddr = op then v else (s.ct.read s.pins.diagAddr).value })

/-- R18, D19: the level on `in_data` at a reset or idle edge is ignored. Whatever level stands there, the results and the
block at the end are the same; so no observation of a program rests on the level the model drives at an RST or IDLE line
(log entry 14). -/
def Obligations.UnsampledInDataIsIgnored : Prop :=
  (∀ (w : PortWord) (xs : List Stimulus) (s : State),
    (runAll (xs.map (withUnsampledLevel w)) s).1 = (runAll xs s).1 ∧
    (runAll (xs.map (withUnsampledLevel w)) s).2.block = (runAll xs s).2.block) ∧
  (∀ (w : PortWord) (p : List Line), observation p =
    ⟨(runAll ((expandProgram p).map (withUnsampledLevel w)) State.reset).1,
     (runAll ((expandProgram p).map (withUnsampledLevel w)) State.reset).2.diagTable⟩)
end

