-- ==== Sys2Proof/Laws/Report.lean ====
section
/-! SUPPORT. Laws of reports as arrays of bytes and of their packing on a port (20_memory.md R37, R38). -/

namespace Sys2Proof

@[simp] theorem Report.get_ofFn (f : Fin 8 → Byte) (i : Fin 8) : (Report.ofFn f).get i = f i := by
  fin_cases i <;> rfl

@[simp] theorem Report.ofFn_get (d : Report) : Report.ofFn d.get = d := rfl

/-- Two reports with the same bytes are the same report. -/
theorem Report.ext_get {d d' : Report} (h : ∀ i, d.get i = d'.get i) : d = d' := by
  rw [← Report.ofFn_get d, ← Report.ofFn_get d', funext h]

theorem Report.get_set (d : Report) (i j : Fin 8) (b : Byte) :
    (d.set i b).get j = if j = i then b else d.get j := by
  simp [Report.set]

namespace Machine

@[simp] theorem unpack_pack (d : Report) : unpack (pack d) = d := by
  apply Report.ext_get
  intro i
  rw [unpack, Report.get_ofFn]
  apply BitVec.eq_of_getLsbD_eq
  intro j hj
  fin_cases i <;>
    simp only [pack, BitVec.getLsbD_extractLsb', BitVec.getLsbD_append, Report.get] <;>
    interval_cases j <;> simp

@[simp] theorem pack_unpack (w : PortWord) : pack (unpack w) = w := by
  apply BitVec.eq_of_getLsbD_eq
  intro j hj
  simp only [pack, unpack, Report.ofFn, BitVec.getLsbD_append, BitVec.getLsbD_extractLsb']
  interval_cases j <;> simp

@[simp] theorem reportOfBytes_bytesOfReport (d : Report) : reportOfBytes (bytesOfReport d) = some d := rfl

/-- Only whole reports have a port word (R42). -/
theorem reportOfBytes_isSome_iff (bs : List Byte) : (reportOfBytes bs).isSome ↔ bs.length = 8 := by
  match bs with
  | [] => simp [reportOfBytes]
  | [_] => simp [reportOfBytes]
  | [_, _] => simp [reportOfBytes]
  | [_, _, _] => simp [reportOfBytes]
  | [_, _, _, _] => simp [reportOfBytes]
  | [_, _, _, _, _] => simp [reportOfBytes]
  | [_, _, _, _, _, _] => simp [reportOfBytes]
  | [_, _, _, _, _, _, _] => simp [reportOfBytes]
  | [_, _, _, _, _, _, _, _] => simp [reportOfBytes]
  | _ :: _ :: _ :: _ :: _ :: _ :: _ :: _ :: _ :: _ => simp [reportOfBytes]

end Machine

end Sys2Proof
end

