-- ==== Sys2Proof/Laws/Decode.lean ====
section
/-! SUPPORT. Laws of the control word and of decoding an edge (30_encoding.md R51). -/

namespace Sys2Proof

@[simp] theorem ctrlRst_ctrlWord (rst v : Bool) : ctrlRst (ctrlWord rst v) = rst := by
  cases rst <;> cases v <;> rfl

@[simp] theorem ctrlInValid_ctrlWord (rst v : Bool) : ctrlInValid (ctrlWord rst v) = v := by
  cases rst <;> cases v <;> rfl

/-- A control word is its two bits. -/
theorem ctrlWord_bits (c : BitVec 2) : ctrlWord (ctrlRst c) (ctrlInValid c) = c := by
  revert c
  decide

theorem decode_edge_rst (v : Bool) (w : PortWord) : decode (.edge (ctrlWord true v) w) = .rst v w := by
  simp [decode]

theorem decode_edge_idle (w : PortWord) : decode (.edge (ctrlWord false false) w) = .idle w := by
  simp [decode]

theorem decode_edge_report (w : PortWord) :
    decode (.edge (ctrlWord false true) w) = decodeReportLine (Machine.unpack w) := by
  simp [decode]

/-- A report line carries its raw report, whatever its class (R59). -/
@[simp] theorem decodeReportLine_report? (raw : Report) : (decodeReportLine raw).report? = some raw := by
  unfold decodeReportLine
  split <;> rfl

@[simp] theorem decodeReportLine_isReset (raw : Report) : (decodeReportLine raw).isReset = false := by
  unfold decodeReportLine
  split <;> rfl

@[simp] theorem decodeReportLine_isClocked (raw : Report) : (decodeReportLine raw).isClocked = true := by
  unfold decodeReportLine
  split <;> rfl

end Sys2Proof
end

