-- ==== Sys2Proof/Laws/State.lean ====
section
/-! SUPPORT. One law per field per update of the state, so that no later proof unfolds a record update. -/

namespace Sys2Proof.Machine

namespace State

variable (s : State)

section DriveEdge
variable (rst v : Bool) (w : PortWord)
@[simp] theorem driveEdge_ct : (s.driveEdge rst v w).ct = s.ct := rfl
@[simp] theorem driveEdge_out : (s.driveEdge rst v w).out = s.out := rfl
@[simp] theorem driveEdge_lines : (s.driveEdge rst v w).lines = s.lines := rfl
@[simp] theorem driveEdge_pins : (s.driveEdge rst v w).pins = ⟨rst, v, w, s.pins.diagAddr⟩ := rfl
end DriveEdge

section DriveDiag
variable (a : Byte)
@[simp] theorem driveDiag_ct : (s.driveDiag a).ct = s.ct := rfl
@[simp] theorem driveDiag_out : (s.driveDiag a).out = s.out := rfl
@[simp] theorem driveDiag_lines : (s.driveDiag a).lines = s.lines := rfl
@[simp] theorem driveDiag_pins : (s.driveDiag a).pins = ⟨s.pins.rst, s.pins.inValid, s.pins.inData, a⟩ := rfl
@[simp] theorem driveDiag_diagValid : (s.driveDiag a).diagValid = (s.ct.read a).valid := rfl
@[simp] theorem driveDiag_diagValue : (s.driveDiag a).diagValue = (s.ct.read a).value := rfl
end DriveDiag

section DriveData
variable (w : PortWord)
@[simp] theorem driveData_ct : (s.driveData w).ct = s.ct := rfl
@[simp] theorem driveData_out : (s.driveData w).out = s.out := rfl
@[simp] theorem driveData_lines : (s.driveData w).lines = s.lines := rfl
@[simp] theorem driveData_pins : (s.driveData w).pins = ⟨s.pins.rst, s.pins.inValid, w, s.pins.diagAddr⟩ := rfl
end DriveData

@[simp] theorem resetBlock_ct : s.resetBlock.ct = [] := rfl
@[simp] theorem resetBlock_out : s.resetBlock.out = Outputs.reset := rfl
@[simp] theorem resetBlock_pins : s.resetBlock.pins = s.pins := rfl
@[simp] theorem resetBlock_lines : s.resetBlock.lines = s.lines := rfl

@[simp] theorem idleBlock_ct : s.idleBlock.ct = s.ct := rfl
@[simp] theorem idleBlock_out : s.idleBlock.out = idleOutputs s.out := rfl
@[simp] theorem idleBlock_pins : s.idleBlock.pins = s.pins := rfl
@[simp] theorem idleBlock_lines : s.idleBlock.lines = s.lines := rfl

section AcceptReport
variable (raw : Report) (path : DecodePath) (dec : Report) (opcode : Byte) (value : Value)
@[simp] theorem acceptReport_ct :
    (s.acceptReport raw path dec opcode value).ct = s.ct.write opcode ⟨true, value⟩ := rfl
@[simp] theorem acceptReport_out :
    (s.acceptReport raw path dec opcode value).out =
      successOutputs raw path dec opcode value (emissionGate (s.ct.write opcode ⟨true, value⟩)) := rfl
@[simp] theorem acceptReport_pins : (s.acceptReport raw path dec opcode value).pins = s.pins := rfl
@[simp] theorem acceptReport_lines : (s.acceptReport raw path dec opcode value).lines = s.lines := rfl
end AcceptReport

section TakeChecksumError
variable (raw att : Report)
@[simp] theorem takeChecksumError_ct : (s.takeChecksumError raw att).ct = s.ct := rfl
@[simp] theorem takeChecksumError_out : (s.takeChecksumError raw att).out = errorOutputs raw att := rfl
@[simp] theorem takeChecksumError_pins : (s.takeChecksumError raw att).pins = s.pins := rfl
@[simp] theorem takeChecksumError_lines : (s.takeChecksumError raw att).lines = s.lines := rfl
end TakeChecksumError

@[simp] theorem dropLine_ct : s.dropLine.ct = s.ct := rfl
@[simp] theorem dropLine_out : s.dropLine.out = s.out := rfl
@[simp] theorem dropLine_pins : s.dropLine.pins = s.pins := rfl
@[simp] theorem dropLine_lines : s.dropLine.lines = s.lines.tail := rfl

@[simp] theorem placeLine_nextLine (x : Stimulus) : (s.placeLine x).nextLine = x := rfl
@[simp] theorem placeLine_dropLine (x : Stimulus) : (s.placeLine x).dropLine = s.dropLine := rfl

end State

end Sys2Proof.Machine
end

