-- ==== Sys2Proof/Laws/Table.lean ====
section
/-! SUPPORT. Laws of the channel table: read after write, and that every operation keeps the canonical form. -/

namespace Sys2Proof.Machine

@[simp] theorem Memory.read_nil (a : Byte) : Memory.read [] a = Entry.unseen := rfl

theorem Entry.known_ne_unseen (v : Value) : (⟨true, v⟩ : Entry) ≠ Entry.unseen := by
  simp [Entry.unseen]

/-- Read after write, for an entry that differs from the reset contents; every table, canonical or not. -/
theorem Memory.read_write_of_ne (m : Memory) (a b : Byte) (e : Entry) (he : e ≠ Entry.unseen) :
    (m.write a e).read b = if b = a then e else m.read b := by
  have key : (a.toNat = b.toNat) ↔ b = a :=
    ⟨fun h => (BitVec.eq_of_toNat_eq h).symm, fun h => by rw [h]⟩
  induction m with
  | nil => simp [Memory.write, he, Memory.read, key]
  | cons c rest ih =>
    obtain ⟨k, x⟩ := c
    by_cases h1 : a.toNat < k
    · simp [Memory.write, h1, he, Memory.read, key]
    · by_cases h2 : a.toNat = k
      · subst h2
        simp only [Memory.write, lt_irrefl, if_false, if_true, if_neg he, Memory.read, key]
        split <;> rfl
      · simp only [Memory.write, h1, h2, if_false, Memory.read, ih]
        by_cases h3 : k = b.toNat
        · have : b ≠ a := fun h => h2 (by rw [h3, h])
          simp [h3, this]
        · simp [h3]

/-- Storing a value (R93) and reading it back; every table. -/
theorem Memory.read_store (m : Memory) (a b : Byte) (v : Value) :
    (m.write a ⟨true, v⟩).read b = if b = a then ⟨true, v⟩ else m.read b :=
  m.read_write_of_ne a b _ (Entry.known_ne_unseen v)

/-- A table from a higher address on is one from a lower address on. -/
theorem Memory.wfFrom_mono {m : Memory} {lo lo' : Nat} (h : m.wfFrom lo' = true) (hl : lo ≤ lo') :
    m.wfFrom lo = true := by
  cases m with
  | nil => rfl
  | cons c rest =>
    simp only [Memory.wfFrom, Bool.and_eq_true, decide_eq_true_eq] at h ⊢
    exact ⟨⟨⟨hl.trans h.1.1.1, h.1.1.2⟩, h.1.2⟩, h.2⟩

theorem Memory.wfFrom_write {m : Memory} (a : Byte) (e : Entry) {lo : Nat} (h : m.wfFrom lo = true)
    (ha : lo ≤ a.toNat) : (m.write a e).wfFrom lo = true := by
  have hsize : a.toNat < Config.tableSize := a.isLt
  induction m generalizing lo with
  | nil => by_cases he : e = Entry.unseen <;> simp [Memory.write, he, Memory.wfFrom, ha, hsize]
  | cons c rest ih =>
    obtain ⟨k, x⟩ := c
    have hc := h
    simp only [Memory.wfFrom, Bool.and_eq_true, decide_eq_true_eq] at h
    obtain ⟨⟨⟨h1, h2⟩, h3⟩, h4⟩ := h
    by_cases hlt : a.toNat < k
    · by_cases he : e = Entry.unseen
      · simpa [Memory.write, hlt, he] using hc
      · simp [Memory.write, hlt, he, Memory.wfFrom, ha, hsize, h2, h3, h4, Nat.succ_le_of_lt hlt]
    · by_cases heq : a.toNat = k
      · by_cases he : e = Entry.unseen
        · simp only [Memory.write, heq, he, lt_irrefl, if_false, if_true]
          exact Memory.wfFrom_mono h4 (by omega)
        · simp [Memory.write, heq, he, Memory.wfFrom, h1, h2, h4]
      · simp only [Memory.write, hlt, heq, if_false, Memory.wfFrom, Bool.and_eq_true, decide_eq_true_eq]
        exact ⟨⟨⟨h1, h2⟩, h3⟩, ih h4 (by omega)⟩

/-- Writing an entry keeps the canonical form. -/
theorem Memory.wf_write {m : Memory} (a : Byte) (e : Entry) (h : m.wf = true) : (m.write a e).wf = true :=
  Memory.wfFrom_write a e h (Nat.zero_le _)

@[simp] theorem Memory.wf_nil : Memory.wf [] = true := rfl

/-- Storing a value keeps every listed entry known. -/
theorem Memory.allKnown_store {m : Memory} (a : Byte) (v : Value) (h : m.allKnown = true) :
    (m.write a ⟨true, v⟩).allKnown = true := by
  have he := Entry.known_ne_unseen v
  induction m with
  | nil => simp [Memory.write, he, Memory.allKnown]
  | cons c rest ih =>
    obtain ⟨k, x⟩ := c
    simp only [Memory.allKnown, List.all_cons, Bool.and_eq_true] at h
    by_cases h1 : a.toNat < k
    · simp [Memory.write, h1, he, Memory.allKnown, h.1, h.2]
    · by_cases h2 : a.toNat = k
      · simp [Memory.write, h2, he, Memory.allKnown, h.2]
      · simp only [Memory.write, h1, h2, if_false, Memory.allKnown, List.all_cons, Bool.and_eq_true]
        exact ⟨h.1, ih h.2⟩

/-- Where every listed entry is known, an unseen channel reads the reset value (R21). -/
theorem Memory.read_unseen {m : Memory} (a : Byte) (h : m.allKnown = true) (hv : (m.read a).valid = false) :
    m.read a = Entry.unseen := by
  induction m with
  | nil => rfl
  | cons c rest ih =>
    obtain ⟨k, x⟩ := c
    simp only [Memory.allKnown, List.all_cons, Bool.and_eq_true] at h
    by_cases hk : k = a.toNat
    · simp [Memory.read, hk, h.1] at hv
    · simp only [Memory.read, hk, if_false] at hv ⊢
      exact ih h.2 hv

/-- Storing the same value twice is storing it once (R108). -/
theorem Memory.write_write_same (m : Memory) (a : Byte) (v : Value) :
    (m.write a ⟨true, v⟩).write a ⟨true, v⟩ = m.write a ⟨true, v⟩ := by
  have he := Entry.known_ne_unseen v
  induction m with
  | nil => simp [Memory.write, he]
  | cons c rest ih =>
    obtain ⟨k, x⟩ := c
    by_cases h1 : a.toNat < k
    · simp [Memory.write, h1, he]
    · by_cases h2 : a.toNat = k
      · simp [Memory.write, h2, he]
      · simp [Memory.write, h1, h2, ih]

end Sys2Proof.Machine
end

