-- ==== Sys2Proof/Laws/Ops.lean ====
section
/-! SUPPORT. What each shared operation can do, said once: the decoder, the report edge, exec and step. -/

namespace Sys2Proof.Machine

/-- What the decoder can answer (R83): clear, transformed, or the error, with the checks that lead to each. -/
theorem decodeReport_cases (key raw : Report) :
    (checksumOk raw = true ∧ decodeReport key raw = .ok .clear raw (opcodeOf raw) (valueOf raw)) ∨
    (checksumOk raw = false ∧ checksumOk (decrypt key raw) = true ∧
      decodeReport key raw = .ok .transformed (decrypt key raw) (opcodeOf (decrypt key raw)) (valueOf (decrypt key raw))) ∨
    (checksumOk raw = false ∧ checksumOk (decrypt key raw) = false ∧
      decodeReport key raw = .err raw (decrypt key raw)) := by
  cases h : checksumOk raw with
  | true => exact .inl ⟨rfl, by simp [decodeReport, h, extractFields]⟩
  | false =>
    cases h' : checksumOk (decrypt key raw) with
    | true => exact .inr (.inl ⟨rfl, rfl, by simp [decodeReport, h, h', extractFields]⟩)
    | false => exact .inr (.inr ⟨rfl, rfl, by simp [decodeReport, h, h']⟩)

/-- An error answer carries the raw report and its candidate (R87). -/
theorem decodeReport_err {key raw raw' att : Report} (h : decodeReport key raw = .err raw' att) :
    raw' = raw ∧ att = decrypt key raw ∧ checksumOk raw = false ∧ checksumOk (decrypt key raw) = false := by
  obtain ⟨-, h'⟩ | ⟨-, -, h'⟩ | ⟨h1, h2, h'⟩ := decodeReport_cases key raw <;> rw [h'] at h <;> cases h
  exact ⟨rfl, rfl, h1, h2⟩

/-- A success answer's fields are those of a report that passes the check (R88). -/
theorem decodeReport_ok {key raw dec : Report} {path : DecodePath} {op : Byte} {v : Value}
    (h : decodeReport key raw = .ok path dec op v) :
    op = opcodeOf dec ∧ v = valueOf dec ∧ checksumOk dec = true ∧
      (path = .clear ∧ dec = raw ∨ path = .transformed ∧ checksumOk raw = false ∧ dec = decrypt key raw) := by
  obtain ⟨h1, h'⟩ | ⟨h1, h2, h'⟩ | ⟨-, -, h'⟩ := decodeReport_cases key raw <;> rw [h'] at h <;> cases h
  · exact ⟨rfl, rfl, h1, .inl ⟨rfl, rfl⟩⟩
  · exact ⟨rfl, rfl, h2, .inr ⟨rfl, h1, rfl⟩⟩

/-- The report edge where the report decodes (R101). -/
theorem reportEdge_of_ok {raw dec : Report} {path : DecodePath} {op : Byte} {v : Value} (s : State)
    (h : decodeReport Config.key raw = .ok path dec op v) :
    s.reportEdge raw = (s.acceptReport raw path dec op v).driveEdge false true (pack raw) := by
  rw [State.reportEdge, h]
  rfl

/-- The report edge where the report fails both checks (R113). -/
theorem reportEdge_of_err {raw raw' att : Report} (s : State) (h : decodeReport Config.key raw = .err raw' att) :
    s.reportEdge raw = (s.takeChecksumError raw att).driveEdge false true (pack raw) := by
  obtain ⟨rfl, -⟩ := decodeReport_err h
  rw [State.reportEdge, h]
  rfl

@[simp] theorem reportEdge_lines (s : State) (raw : Report) : (s.reportEdge raw).lines = s.lines := by
  cases h : decodeReport Config.key raw with
  | ok path dec op v => simp [reportEdge_of_ok s h]
  | err raw' att => simp [reportEdge_of_err s h]

@[simp] theorem reportEdge_pins (s : State) (raw : Report) :
    (s.reportEdge raw).pins = ⟨false, true, pack raw, s.pins.diagAddr⟩ := by
  cases h : decodeReport Config.key raw with
  | ok path dec op v => simp [reportEdge_of_ok s h]
  | err raw' att => simp [reportEdge_of_err s h]

/-- Every report transaction is the report edge of its raw report (R101). -/
theorem exec_of_report {i : Instr} {raw : Report} (h : i.report? = some raw) (s : State) :
    exec i s = .next (s.reportEdge raw) := by
  cases i <;> cases h <;> rfl

/-- What a transaction can do to the block `(CT, OUT)`: reset it (R128), clear the pulses (R102), store and load a result
(R101), load a Checksum Error (R113), or nothing (R67, R78, R103). -/
def Effect (i : Instr) (s t : State) : Prop :=
  (i.isReset = true ∧ i.report? = none ∧ i.isClocked = true ∧ t.ct = [] ∧ t.out = Outputs.reset) ∨
  (i.isReset = false ∧ i.report? = none ∧ i.isClocked = true ∧ t.ct = s.ct ∧ t.out = idleOutputs s.out) ∨
  (i.isReset = false ∧ i.isClocked = true ∧ ∃ raw path dec op v, i.report? = some raw ∧
    decodeReport Config.key raw = .ok path dec op v ∧ t.ct = s.ct.write op ⟨true, v⟩ ∧
    t.out = successOutputs raw path dec op v (emissionGate t.ct)) ∨
  (i.isReset = false ∧ i.isClocked = true ∧ ∃ raw att, i.report? = some raw ∧
    decodeReport Config.key raw = .err raw att ∧ t.ct = s.ct ∧ t.out = errorOutputs raw att) ∨
  (i.isReset = false ∧ i.report? = none ∧ i.isClocked = false ∧ t.ct = s.ct ∧ t.out = s.out)

/-- The effect of a report edge is one of the two of a report. -/
theorem effect_of_report {i : Instr} {raw : Report} (h : i.report? = some raw) (s : State) :
    Effect i s (s.reportEdge raw) := by
  have hr : i.isReset = false ∧ i.isClocked = true := by cases i <;> cases h <;> exact ⟨rfl, rfl⟩
  cases hd : decodeReport Config.key raw with
  | ok path dec op v =>
    exact .inr (.inr (.inl ⟨hr.1, hr.2, raw, path, dec, op, v, h, hd, by simp [reportEdge_of_ok s hd]⟩))
  | err raw' att =>
    obtain ⟨rfl, -⟩ := decodeReport_err hd
    exact .inr (.inr (.inr (.inl ⟨hr.1, hr.2, raw', att, h, hd, by simp [reportEdge_of_err s hd]⟩)))

/-- Every transaction runs, leaves the host's lines alone, and has one of the five effects. -/
theorem exec_cases (i : Instr) (s : State) : ∃ t, exec i s = .next t ∧ t.lines = s.lines ∧ Effect i s t := by
  cases i with
  | rst v w => exact ⟨_, rfl, rfl, .inl ⟨rfl, rfl, rfl, rfl, rfl⟩⟩
  | idle w => exact ⟨_, rfl, rfl, .inr (.inl ⟨rfl, rfl, rfl, rfl, rfl⟩)⟩
  | rptCo2 raw => exact ⟨_, rfl, reportEdge_lines s raw, effect_of_report rfl s⟩
  | rptTemp raw => exact ⟨_, rfl, reportEdge_lines s raw, effect_of_report rfl s⟩
  | rptUnknown raw => exact ⟨_, rfl, reportEdge_lines s raw, effect_of_report rfl s⟩
  | rptChkerr raw => exact ⟨_, rfl, reportEdge_lines s raw, effect_of_report rfl s⟩
  | diag a => exact ⟨_, rfl, rfl, .inr (.inr (.inr (.inr ⟨rfl, rfl, rfl, rfl, rfl⟩)))⟩
  | decrypt data => exact ⟨_, rfl, rfl, .inr (.inr (.inr (.inr ⟨rfl, rfl, rfl, rfl, rfl⟩)))⟩
  | chksum d => exact ⟨_, rfl, rfl, .inr (.inr (.inr (.inr ⟨rfl, rfl, rfl, rfl, rfl⟩)))⟩

/-- What a step can do to the block. -/
theorem step_effect {s t : State} (h : step s = .next t) : Effect (decode s.nextLine) s t := by
  obtain ⟨u, hu, -, he⟩ := exec_cases (decode s.nextLine) s.dropLine
  rw [step, hu] at h
  cases h
  exact he

/-- A transaction's effect on the table, and a report's on the output registers, depend on the table alone. -/
theorem exec_same_table (i : Instr) {s s' : State} (h : s.ct = s'.ct) :
    ∃ t t', exec i s = .next t ∧ exec i s' = .next t' ∧ t.ct = t'.ct ∧ (i.report?.isSome = true → t.out = t'.out) := by
  cases hr : i.report? with
  | some raw =>
    refine ⟨_, _, exec_of_report hr s, exec_of_report hr s', ?_⟩
    cases hd : decodeReport Config.key raw with
    | ok path dec op v => simp [reportEdge_of_ok _ hd, h]
    | err raw' att => simp [reportEdge_of_err _ hd, h]
  | none =>
    obtain ⟨t, ht, -, he⟩ := exec_cases i s
    obtain ⟨t', ht', -, he'⟩ := exec_cases i s'
    refine ⟨t, t', ht, ht', ?_, fun hn => absurd hn (by simp)⟩
    simp only [Effect, hr] at he he'
    rcases he with e | e | e | e | e <;> rcases he' with e' | e' | e' | e' | e' <;> simp_all

/-- The step where the host has a line to come. -/
theorem step_cons {s : State} {x : Stimulus} {rest : List Stimulus} (h : s.lines = x :: rest) :
    step s = exec (decode x) { s with lines := rest } := by
  simp [step, State.nextLine, State.dropLine, h]

end Sys2Proof.Machine
end

