-- ==== Sys2Proof/Laws/PerInstr.lean ====
section
/-! SUPPORT. A law of every transaction as syntax, one lemma a constructor: its encoding takes a rising edge exactly
when the transaction is clocked (00_scope.md R3; 30_encoding.md R63), and decoding it gives a transaction that is
clocked exactly when it is. -/

namespace Sys2Proof.Laws.EdgeFormat

/-- The encoding takes an edge exactly when the transaction is clocked, and decoding keeps that. -/
def Statement (i : Instr) : Prop :=
  (encode i).takesEdge = i.isClocked ∧ (decode (encode i)).isClocked = i.isClocked

/-- The encoding of a report cycle decodes to a clocked transaction (R51, R59). -/
theorem decode_report_isClocked (raw : Report) :
    (decode (.edge (ctrlWord false true) (Machine.pack raw))).isClocked = true := by
  rw [decode_edge_report, decodeReportLine_isClocked]

theorem rst (v : Bool) (w : PortWord) : Statement (.rst v w) := by
  cases v <;> exact ⟨rfl, rfl⟩

theorem idle (w : PortWord) : Statement (.idle w) := ⟨rfl, rfl⟩

theorem rptCo2 (raw : Report) : Statement (.rptCo2 raw) :=
  ⟨rfl, decode_report_isClocked raw⟩

theorem rptTemp (raw : Report) : Statement (.rptTemp raw) :=
  ⟨rfl, decode_report_isClocked raw⟩

theorem rptUnknown (raw : Report) : Statement (.rptUnknown raw) :=
  ⟨rfl, decode_report_isClocked raw⟩

theorem rptChkerr (raw : Report) : Statement (.rptChkerr raw) :=
  ⟨rfl, decode_report_isClocked raw⟩

theorem diag (addr : Byte) : Statement (.diag addr) := ⟨rfl, rfl⟩

theorem decrypt (data : Report) : Statement (.decrypt data) := ⟨rfl, rfl⟩

theorem chksum (d : Report) : Statement (.chksum d) := ⟨rfl, rfl⟩

end Sys2Proof.Laws.EdgeFormat
end

