-- ==== Sys2Proof/Laws/Run.lean ====
section
/-! SUPPORT. A run is its first line and then the run of the rest; the latest values of a list of results. -/

namespace Sys2Proof.Machine

@[simp] theorem withLines_ct (s : State) (xs : List Stimulus) : (s.withLines xs).ct = s.ct := rfl
@[simp] theorem withLines_out (s : State) (xs : List Stimulus) : (s.withLines xs).out = s.out := rfl
@[simp] theorem withLines_pins (s : State) (xs : List Stimulus) : (s.withLines xs).pins = s.pins := rfl
@[simp] theorem withLines_lines (s : State) (xs : List Stimulus) : (s.withLines xs).lines = xs := rfl
@[simp] theorem withLines_withLines (s : State) (xs ys : List Stimulus) :
    (s.withLines xs).withLines ys = s.withLines ys := rfl

@[simp] theorem runAll_nil (s : State) : runAll [] s = ([], s.withLines []) := rfl

/-- The run of a line and the rest, for the state its transaction leads to. -/
theorem runAll_cons {x : Stimulus} {xs : List Stimulus} {s t : State}
    (h : exec (decode x) (s.withLines xs) = .next t) :
    runAll (x :: xs) s =
      (if acceptsReport x then t.result :: (runAll xs t).1 else (runAll xs t).1, (runAll xs t).2) := by
  have hl : t.lines = xs := by
    obtain ⟨u, hu, hlines, -⟩ := exec_cases (decode x) (s.withLines xs)
    rw [h] at hu
    cases hu
    exact hlines
  have ht : t.withLines xs = t := by rw [← hl]; rfl
  have hstep : step (s.withLines (x :: xs)) = .next t := by
    rw [step_cons (s := s.withLines (x :: xs)) rfl]
    exact h
  rw [runAll, List.length_cons, runLines, hstep, runAll, ht]
  rfl

/-- The latest value of a list of results is that of its later part, where that part reports the channel. -/
theorem latestValue_append (op : Byte) (rs rs' : List Result) :
    latestValue op (rs ++ rs') = (latestValue op rs').or (latestValue op rs) := by
  induction rs with
  | nil => simp [latestValue]
  | cons r rs ih => simp [latestValue, ih, Option.or_assoc]

end Sys2Proof.Machine
end

