-- ==== Sys2Proof/Laws/Units.lean ====
section
/-! SUPPORT. What the validator and the emission gate say, each once. -/

namespace Sys2Proof.Machine

/-- The validator is its two tests (R78). -/
theorem checksumOk_eq_true (d : Report) :
    checksumOk d = true ↔ terminatorOf d = Config.term ∧ sumOf d % 256 = (checksumOf d).toNat := by
  simp [checksumOk]

/-- The gate emits exactly when both channels are known, and then their latest values (R97). -/
theorem emissionGate_eq_some (ct : Memory) (smp : Sample) :
    emissionGate ct = some smp ↔
      bothKnown ct = true ∧ smp = ⟨(ct.read Config.opCo2).value, (ct.read Config.opTemp).value⟩ := by
  unfold emissionGate
  split
  · simp [*, eq_comm]
  · simp [*]

/-- The gate emits exactly when both channels are known (R97). -/
theorem emissionGate_isSome (ct : Memory) : (emissionGate ct).isSome = bothKnown ct := by
  unfold emissionGate
  split <;> simp [*]

/-- Storing a value leaves known channels known (R99). -/
theorem bothKnown_store {ct : Memory} (op : Byte) (v : Value) (h : bothKnown ct = true) :
    bothKnown (ct.write op ⟨true, v⟩) = true := by
  simp only [bothKnown, Bool.and_eq_true, Memory.read_store] at h ⊢
  constructor
  · split
    · rfl
    · exact h.1
  · split
    · rfl
    · exact h.2

end Sys2Proof.Machine
end

