-- ==== Sys2Proof/Tests/Slice0.lean ====
section
/-! SUPPORT. The model's own tests: the checks of WellFormed, words decoded from the spec's encodings, one step on small
states with the results of 95_test_vectors.md, and a witness for the hypotheses of every statement that has any. -/

namespace Sys2Proof.Tests

open Sys2Proof.Machine

/-- `plain(0x50, 700)`, V-DEC-1. -/
def clearCo2 : Report := ⟨0x50, 0x02, 0xBC, 0x0E, 0x0D, 0, 0, 0⟩
/-- The obfuscated CO2 report of 700, V-TR-1. -/
def obfCo2 : Report := ⟨0x57, 0xE4, 0x66, 0x20, 0x8E, 0x46, 0xBF, 0xB2⟩
/-- The obfuscated temperature report of 4800, V-TR-4. -/
def obfTemp : Report := ⟨0x77, 0xE4, 0xF6, 0x20, 0x0E, 0x46, 0xBF, 0xC2⟩
/-- The obfuscated report of opcode 0x6D, V-TR-6. -/
def obfUnknown : Report := ⟨0x94, 0xE4, 0x4E, 0x21, 0x0A, 0x46, 0xBF, 0xDA⟩
/-- A report that fails both checks, V-DEC-4. -/
def badReport : Report := ⟨0x57, 0xE4, 0x66, 0x20, 0x8E, 0x46, 0xBF, 0xB3⟩
/-- A report that passes both checks, V-DEC-6. -/
def bothReport : Report := ⟨0xA2, 0xE2, 0x6D, 0xF1, 0x0D, 0x1B, 0x15, 0xEA⟩

/-- A state with the given table. -/
def withTable (m : Memory) : State := { State.reset with ct := m }

/-- CO2 700 known. -/
def co2Known : State := withTable [(0x50, ⟨true, 700⟩)]
/-- Both channels known: 700 and 4800. -/
def warm : State := withTable [(0x42, ⟨true, 4800⟩), (0x50, ⟨true, 700⟩)]
/-- Both channels known, and the unknown opcode 0x6D. -/
def warmAndUnknown : State := withTable [(0x42, ⟨true, 4800⟩), (0x50, ⟨true, 700⟩), (0x6D, ⟨true, 0x1234⟩)]

/-- The state an outcome reached, or the given one. -/
def after (o : Host.Outcome State Fault Refusal) (s : State) : State :=
  match o with
  | .next t => t
  | .fault _ => s
  | .refused _ => s

-- WellFormed: an ill-formed term for each check.
theorem test_wellFormed_rejects_co2 : (Instr.rptCo2 obfTemp).wellFormed = false := by decide
theorem test_wellFormed_rejects_temp : (Instr.rptTemp badReport).wellFormed = false := by decide
theorem test_wellFormed_rejects_unknown : (Instr.rptUnknown obfCo2).wellFormed = false := by decide
theorem test_wellFormed_rejects_chkerr : (Instr.rptChkerr clearCo2).wellFormed = false := by decide
theorem test_wellFormed_accepts : (Instr.rptCo2 obfCo2).wellFormed = true ∧ (Instr.rptTemp obfTemp).wellFormed = true ∧
    (Instr.rptUnknown obfUnknown).wellFormed = true ∧ (Instr.rptChkerr badReport).wellFormed = true := by decide

-- Decode: control words bit by bit from R51, reports byte by byte from R53 and the vectors, every constructor.
theorem test_decode_rst : decode (.edge 0b10 0) = .rst false 0 := by decide
theorem test_decode_rst_over_report : decode (.edge 0b11 0x77E4F6200E46BFC2) = .rst true 0x77E4F6200E46BFC2 := by decide
theorem test_decode_idle : decode (.edge 0b00 0xFFFFFFFFFFFFFFFF) = .idle 0xFFFFFFFFFFFFFFFF := by decide
theorem test_decode_co2 : decode (.edge 0b01 0x57E466208E46BFB2) = .rptCo2 obfCo2 := by decide
theorem test_decode_co2_clear : decode (.edge 0b01 0x5002BC0E0D000000) = .rptCo2 clearCo2 := by decide
theorem test_decode_temp : decode (.edge 0b01 0x77E4F6200E46BFC2) = .rptTemp obfTemp := by decide
theorem test_decode_unknown : decode (.edge 0b01 0x94E44E210A46BFDA) = .rptUnknown obfUnknown := by decide
theorem test_decode_chkerr : decode (.edge 0b01 0x57E466208E46BFB3) = .rptChkerr badReport := by decide
theorem test_decode_diag : decode (.diagPort 0xDC) = .diag 0xDC := by decide
theorem test_decode_decrypt : decode (.transformPort 0x57E466208E46BFB2) = .decrypt obfCo2 := by decide
theorem test_decode_chksum : decode (.validatorPort 0x5002BC0E0D000000) = .chksum clearCo2 := by decide
theorem test_decode_bytes : decodeBytes .clocked [0x01, 0x57, 0xE4, 0x66, 0x20, 0x8E, 0x46, 0xBF, 0xB2] =
    .ok (.rptCo2 obfCo2) := by rfl
theorem test_decode_short_report : decodeBytes .clocked [0x01, 0x57, 0xE4] = .error .notAWholeReport := by rfl
theorem test_decode_wide_control : decodeBytes .clocked [0x04] = .error .controlWordTooWide := by rfl
theorem test_tableWord_rst : decodeTableWord 8 0x2 = some (.rst false 0) := by decide
theorem test_tableWord_idle : decodeTableWord 8 0x0 = some (.idle 0) := by decide
theorem test_tableWord_unknown : decodeTableWord 64 0x000000000D000000 =
    some (.rptUnknown ⟨0, 0, 0, 0, 0x0D, 0, 0, 0⟩) := by decide
theorem test_tableWord_co2 : decodeTableWord 64 0x5002BC0E0D000000 = some (.rptCo2 clearCo2) := by decide
theorem test_tableWord_runs : step (State.reset.withFetchWord 64 0x5002BC0E0D000000) =
    exec (.rptCo2 clearCo2) State.reset := rfl

-- DECRYPT and the stages, V-TR.
theorem test_stages_V_TR_1 : phase1 obfCo2 = ⟨0x66, 0x8E, 0x57, 0xB2, 0xE4, 0xBF, 0x46, 0x20⟩ ∧
    phase2 Config.key (phase1 obfCo2) = ⟨0xA2, 0x48, 0x97, 0x20, 0xA4, 0x9C, 0x9A, 0xB6⟩ ∧
    phase3 (phase2 Config.key (phase1 obfCo2)) = ⟨0xD4, 0x49, 0x12, 0xE4, 0x14, 0x93, 0x93, 0x56⟩ ∧
    decrypt Config.key obfCo2 = clearCo2 := by decide
theorem test_decrypt_zero_key_V_TR_8 :
    decrypt Report.zero Report.zero = ⟨0x7C, 0xB9, 0xAA, 0x2A, 0xF9, 0x6D, 0x6D, 0xAA⟩ := by decide
theorem test_exec_decrypt_V_TR_3 :
    (after (exec (.decrypt ⟨0xFF, 0xFF, 0xFF, 0xFF, 0xFF, 0xFF, 0xFF, 0xFF⟩) warm) warm).transformOut =
      ⟨0xA3, 0x20, 0xD1, 0x17, 0xB0, 0x68, 0xF1, 0x17⟩ := by decide
theorem test_enc_with_pads_V_ENC : enc Config.key ⟨0x50, 0x02, 0xBC, 0x0E, 0x0D, 0x11, 0x22, 0x33⟩ =
    ⟨0x57, 0xE5, 0x66, 0xD8, 0x8E, 0x70, 0x06, 0xB2⟩ := by decide

-- CHKSUM, V-CK.
theorem test_chksum_V_CK : checksumOk ⟨0xFF, 0xFF, 0xFF, 0xFD, 0x0D, 0, 0, 0⟩ = true ∧
    checksumOk ⟨0x50, 0x02, 0xBC, 0x0E, 0x0C, 0, 0, 0⟩ = false ∧ checksumOk ⟨0x50, 0x02, 0xBC, 0x0F, 0x0D, 0, 0, 0⟩ = false ∧
    checksumOk Report.zero = false ∧ checksumOk ⟨0x50, 0x02, 0xBC, 0x0E, 0x0D, 0xAA, 0xBB, 0xCC⟩ = true ∧
    checksumOk ⟨0x0D, 0x0D, 0x0D, 0x0D, 0x0D, 0x0D, 0x0D, 0x0D⟩ = false := by decide
theorem test_exec_chksum_V_CK_7 :
    (after (exec (.chksum ⟨0, 0, 0, 0, 0x0D, 0, 0, 0⟩) State.reset) State.reset).rawCheck = true := by decide

-- RST and IDLE, V-RST-2 and the note under V-DMX.
theorem test_rst_drops_the_report : (after (exec (.rst true 0x77E4F6200E46BFC2) warm) warm).block =
    State.reset.block := by decide
theorem test_idle_holds_the_sample :
    let t := after (exec (.rptTemp obfTemp) co2Known) co2Known
    let u := after (exec (.idle 0) t) t
    (u.out.ov, u.out.sv, u.out.oop, u.out.sco2, u.out.stemp) = (false, false, 0x42, 700, 4800) := by decide

-- The report rows, V-DMX and V-DEC.
theorem test_co2_V_DMX_1 : (after (exec (.rptCo2 obfCo2) State.reset) State.reset).block =
    ([(0x50, ⟨true, 700⟩)],
      ⟨true, false, true, 0x50, 700, 0x57E466208E46BFB2, 0x5002BC0E0D000000, false, 0, 0⟩) := by decide
theorem test_temp_V_DMX_2 : (after (exec (.rptTemp obfTemp) co2Known) co2Known).block =
    ([(0x42, ⟨true, 4800⟩), (0x50, ⟨true, 700⟩)],
      ⟨true, false, true, 0x42, 4800, 0x77E4F6200E46BFC2, 0x4212C0140D000000, true, 700, 4800⟩) := by decide
theorem test_unknown_V_DMX_4 : (after (exec (.rptUnknown obfUnknown) warm) warm).block =
    (warmAndUnknown.ct,
      ⟨true, false, true, 0x6D, 0x1234, 0x94E44E210A46BFDA, 0x6D1234B30D000000, true, 700, 4800⟩) := by decide
theorem test_unknown_V_DMX_5 : (after (exec (.rptUnknown obfUnknown) co2Known) co2Known).out.sv = false := by decide
theorem test_chkerr_V_DMX_6 : (after (exec (.rptChkerr badReport) warm) warm).block =
    (warm.ct, ⟨true, true, true, 0, 0, 0x57E466208E46BFB3, 0x5002BC0E2D000000, false, 0, 0⟩) := by decide
theorem test_misread_V_DEC_7 : decodeReport Config.key ⟨0xDC, 0xE4, 0x60, 0x20, 0x0D, 0x46, 0xBF, 0xBA⟩ =
    .ok .clear ⟨0xDC, 0xE4, 0x60, 0x20, 0x0D, 0x46, 0xBF, 0xBA⟩ 0xDC 0xE460 := by decide

-- DIAG, V-DIAG.
theorem test_diag_V_DIAG_2 : let t := after (exec (.diag 0x50) warm) warm
    (t.diagValid, t.diagValue) = (true, 0x02BC) := by decide
theorem test_diag_V_DIAG_4 : let t := after (exec (.diag 0x6D) warm) warm
    (t.diagValid, t.diagValue) = (false, 0) := by decide

-- The host's temperature, V-TEMP.
theorem test_tempC_V_TEMP : tempC 0 = 0xC071126666666666 ∧ tempC 4369 = 0xBFB6666666666000 ∧
    tempC 4371 = 0x3FA3333333334000 ∧ tempC 4800 = 0x403AD999999999A0 ∧ tempC 65535 = 0x40ADDD9333333333 := by decide
/-- `celsiusOffset` is the nearest whole number of units of 2^-44 to 273.15. -/
theorem test_celsiusOffset_nearest :
    2 * ((100 * celsiusOffset : Nat) - (27315 * 2 ^ 44 : Nat) : Int).natAbs ≤ 100 := by decide

-- A short program in the notation, V-SRC-2 and V-SRC-3 (R63, R66, R140), and the latest values R142 reads off it.
theorem test_program_V_SRC_2_3 : (observation [.rst, .co2c 700, .tempc 4800, .co2c 650]).results.map Result.printed =
    [.out false false 0x50 700 none, .out false false 0x42 4800 (some ⟨700, 4800⟩),
     .out false false 0x50 650 (some ⟨650, 4800⟩)] := by decide
theorem test_latestValue_V_SRC_3 :
    let rs := (observation [.rst, .co2c 700, .tempc 4800, .co2c 650]).results
    (latestValue 0x50 rs, latestValue 0x42 rs, latestValue 0x6D rs) = (some 650, some 4800, none) := by decide

-- Witnesses: states and operands that meet the hypotheses of the statements, each named after its statement.
theorem witness_ResetEdgesInARowAreOne : [(true, (0x77E4F6200E46BFC2 : PortWord)), (false, 0)] ≠ [] := by decide
theorem witness_DiagReadShowsEntryWithoutEdge :
    (Instr.rptCo2 obfCo2).report? = some obfCo2 ∧ exec (.rptCo2 obfCo2) warm = .next (warm.reportEdge obfCo2) ∧
    decodeReport Config.key obfCo2 = .ok .transformed clearCo2 0x50 700 ∧
    exec (.rptChkerr badReport) warm = .next (warm.reportEdge badReport) ∧
    decodeReport Config.key badReport = .err badReport (decrypt Config.key badReport) :=
  ⟨rfl, rfl, by decide, rfl, by decide⟩
theorem witness_Co2ReportStoresAndEmits :
    decodeReport Config.key clearCo2 = .ok .clear clearCo2 0x50 700 ∧
    decodeReport Config.key obfCo2 = .ok .transformed clearCo2 0x50 700 := by decide
theorem witness_TempReportStoresAndEmits :
    decodeReport Config.key obfTemp = .ok .transformed ⟨0x42, 0x12, 0xC0, 0x14, 0x0D, 0, 0, 0⟩ 0x42 4800 := by decide
theorem witness_UnknownReportStoresAndEmitsStoredPair :
    decodeReport Config.key obfUnknown = .ok .transformed ⟨0x6D, 0x12, 0x34, 0xB3, 0x0D, 0, 0, 0⟩ 0x6D 0x1234 ∧
    (0x6D : Byte) ≠ 0x50 ∧ (0x6D : Byte) ≠ 0x42 := by decide
theorem witness_ChecksumErrorLoadsErrorOutputs :
    checksumOk badReport = false ∧ checksumOk (decrypt Config.key badReport) = false := by decide
theorem witness_ReportTransactionLoadsResult : (Instr.rptCo2 obfCo2).report? = some obfCo2 ∧
    (Instr.rptTemp obfTemp).report? = some obfTemp ∧ (Instr.rptUnknown obfUnknown).report? = some obfUnknown ∧
    (Instr.rptChkerr badReport).report? = some badReport := by decide
theorem witness_ChecksumErrorExactlyWhenBothChecksFail : (Instr.rptChkerr badReport).report? = some badReport ∧
    (Instr.rst true 0).isClocked = true ∧ (Instr.rst true 0).report? = none ∧
    (Instr.idle 0).isClocked = true ∧ (Instr.idle 0).report? = none := by decide
theorem witness_DecoderTriesClearThenTransformThenError : checksumOk clearCo2 = true ∧
    (clearCo2 = decrypt Config.key obfCo2 ∧ checksumOk obfCo2 = false ∧ checksumOk clearCo2 = true) ∧
    (checksumOk badReport = false ∧ checksumOk (decrypt Config.key badReport) = false) := by decide
theorem witness_ClearPathWinsWhenBothPass :
    checksumOk bothReport = true ∧ checksumOk (decrypt Config.key bothReport) = true := by decide
/-- A line for each branch: reset over a report, idle, and the three answers of the decoder. -/
theorem witness_OneEdgeTakesResetThenReportThenIdle :
    (warm.withLines [.edge 0b11 0x77E4F6200E46BFC2]).lines = [.edge 0b11 0x77E4F6200E46BFC2] ∧
    ((0b11 : BitVec 2).getLsbD 1 = true ∧ (0b10 : BitVec 2).getLsbD 1 = true) ∧
    ((0b01 : BitVec 2).getLsbD 1 = false ∧ (0b01 : BitVec 2).getLsbD 0 = true) ∧
    ((0b00 : BitVec 2).getLsbD 1 = false ∧ (0b00 : BitVec 2).getLsbD 0 = false) ∧
    checksumOk (unpack 0x5002BC0E0D000000) = true ∧
    (checksumOk (unpack 0x57E466208E46BFB2) = false ∧ checksumOk (decrypt Config.key (unpack 0x57E466208E46BFB2)) = true) ∧
    (checksumOk (unpack 0x57E466208E46BFB3) = false ∧
      checksumOk (decrypt Config.key (unpack 0x57E466208E46BFB3)) = false) := by decide
theorem witness_DecodeOfEncodeIsTheTransaction : (Instr.rst true 1).wellFormed = true ∧
    (Instr.idle 1).wellFormed = true ∧ (Instr.rptCo2 obfCo2).wellFormed = true ∧ (Instr.rptTemp obfTemp).wellFormed = true ∧
    (Instr.rptUnknown bothReport).wellFormed = true ∧ (Instr.rptChkerr badReport).wellFormed = true ∧
    (Instr.diag 0xFF).wellFormed = true ∧ (Instr.decrypt obfCo2).wellFormed = true ∧
    (Instr.chksum obfCo2).wellFormed = true := by decide
/-- Seven and nine bytes, and the largest control word. -/
theorem witness_PartialReportsAreRejected : (List.replicate 7 (0 : Byte)).length ≠ 8 ∧
    (List.replicate 9 (0 : Byte)).length ≠ 8 ∧ (3 : Byte).toNat < 4 := by decide
theorem witness_StepRunsTheDecodedLine :
    (warm.withLines [.diagPort 0x50, .edge 0b00 0]).lines = [.diagPort 0x50, .edge 0b00 0] ∧ warm.lines = [] := by decide
/-- A state that a report has reached, and the next report's step from it. -/
theorem witness_StepKeepsInvariant :
    ((State.reset.reportEdge obfCo2).placeLine (.edge 0b01 0x77E4F6200E46BFC2)).Inv ∧
    step ((State.reset.reportEdge obfCo2).placeLine (.edge 0b01 0x77E4F6200E46BFC2)) =
      .next ((State.reset.reportEdge obfCo2).reportEdge obfTemp) :=
  ⟨⟨by decide, by decide, .inr ⟨by decide, by decide⟩⟩, rfl⟩
theorem witness_OutputByteDependsOnTwoInputBytes :
    (Report.zero.get (Config.shuffle 1) = (Report.zero.set 7 0xFF).get (Config.shuffle 1) ∧
      Report.zero.get (Config.shuffle 0) = (Report.zero.set 7 0xFF).get (Config.shuffle 0)) ∧
    (∀ i : Fin 8, i.val ≤ 4 → clearCo2.get i = (clearCo2.set 5 0xAA).get i) := by decide
theorem witness_ObfuscatedReportsDecodeUnlessTheyLookClear :
    checksumOk (enc Config.key (plain 0x50 700)) = false ∧ checksumOk (enc Config.key (plain 0x50 21005)) = true := by decide
/-- A step of each kind: reset, no report, an error, a store. -/
theorem witness_TableIsWrittenInTwoWays :
    step (warm.placeLine (.edge 0b10 0)) = exec (.rst false 0) warm ∧
    step (warm.placeLine (.diagPort 0)) = exec (.diag 0) warm ∧
    step (warm.placeLine (.edge 0b01 0x57E466208E46BFB3)) = .next (warm.reportEdge badReport) ∧
    step (warm.placeLine (.edge 0b01 0x94E44E210A46BFDA)) = .next (warm.reportEdge obfUnknown) :=
  ⟨rfl, rfl, rfl, rfl⟩
/-- Unseen to known by a report, known to unseen by a reset. -/
theorem witness_ChannelStateMachine :
    (step (warm.placeLine (.edge 0b01 0x94E44E210A46BFDA)) = .next (warm.reportEdge obfUnknown) ∧
      warm.known 0x6D = false ∧ (warm.reportEdge obfUnknown).known 0x6D = true) ∧
    (step (warm.placeLine (.edge 0b10 0)) = .next (warm.resetBlock.driveEdge true false 0) ∧
      warm.known 0x50 = true ∧ (warm.resetBlock.driveEdge true false 0).known 0x50 = false) :=
  ⟨⟨rfl, by decide, by decide⟩, ⟨rfl, by decide, by decide⟩⟩
/-- A temperature report and an idle edge leave the CO2 channel alone. -/
theorem witness_ValuesPersist : ∀ x ∈ [Stimulus.edge 0b01 0x77E4F6200E46BFC2, .edge 0b00 0], isResetLine x = false ∧
    ∀ raw path dec v, (decode x).report? = some raw → decodeReport Config.key raw ≠ .ok path dec 0x50 v := by
  intro x hx
  simp only [List.mem_cons, List.not_mem_nil, or_false] at hx
  rcases hx with rfl | rfl
  · refine ⟨by decide, fun raw path dec v hr h => ?_⟩
    have hraw : raw = obfTemp := by
      rw [test_decode_temp] at hr
      exact (Option.some.inj hr).symm
    rw [hraw, witness_TempReportStoresAndEmits] at h
    injection h with _ _ hop _
    exact absurd hop (by decide)
  · refine ⟨by decide, fun raw path dec v hr _ => ?_⟩
    exact absurd hr (by rw [show decode (.edge 0b00 0) = .idle 0 from rfl]; exact fun h => nomatch h)
theorem witness_WarmedUpBlockAlwaysEmits : bothKnown warm.ct = true ∧
    ∀ x ∈ [Stimulus.edge 0b01 0x94E44E210A46BFDA, .edge 0b01 0x57E466208E46BFB3, .edge 0b00 0], isResetLine x = false := by
  decide
theorem witness_ResultsDoNotDependOnTime :
    startsSession [.edge 0b10 0, .edge 0b01 0x57E466208E46BFB2] = true := by decide
theorem witness_UnknownEntriesNeverReachResults : warm.ct.read 0x50 = warmAndUnknown.ct.read 0x50 ∧
    warm.ct.read 0x42 = warmAndUnknown.ct.read 0x42 ∧ warm.ct ≠ warmAndUnknown.ct := by decide
theorem witness_DecodedResultIsTheReportsOwn : (Instr.rptTemp obfTemp).report? = some obfTemp := by decide
theorem witness_RepeatedReportRepeatsItsEffect : (Instr.rptCo2 obfCo2).report? = some obfCo2 ∧
    decodeReport Config.key obfCo2 = .ok .transformed clearCo2 0x50 700 ∧
    bothKnown warm.ct = true ∧ bothKnown warmAndUnknown.ct = true := by decide
theorem witness_PulsesLastOneCycle : (Instr.rptTemp obfTemp).isClocked = true ∧
    (co2Known.reportEdge obfTemp).out.sv = true ∧
    ((Instr.idle 0).isClocked = true ∧ (Instr.idle 0).report? = none ∧ (Instr.idle 0).isReset = false) ∧
    (Instr.diag 0).isClocked = false := by decide
theorem witness_SampleOnlyWithASuccessfulResult :
    step (co2Known.placeLine (.edge 0b01 0x77E4F6200E46BFC2)) = .next (co2Known.reportEdge obfTemp) ∧
    (decode (.edge 0b01 0x77E4F6200E46BFC2)).isClocked = true ∧
    (co2Known.reportEdge obfTemp).hostSample = some ⟨700, 0x403AD999999999A0⟩ :=
  ⟨rfl, by decide, by decide⟩
theorem witness_TestablePropertiesReadOffTheResult : (Instr.rptCo2 clearCo2).report? = some clearCo2 ∧
    (Instr.rptChkerr badReport).report? = some badReport ∧
    (isResetLine (.edge 0b10 0) = true ∧ ∀ y ∈ [reportStimulus 0x57E466208E46BFB2, .edge 0b00 0,
      reportStimulus 0x57E466208E46BFB3, reportStimulus 0x77E4F6200E46BFC2], isResetLine y = false) := by decide
theorem witness_CanonicalTablesAreTheirContents : warm.ct.wf = true ∧ warmAndUnknown.ct.wf = true ∧
    warm.ct.read 0x50 = ⟨true, 700⟩ := by decide
theorem witness_Co2ThenTempEmitsThatPair :
    decodeReport Config.key (unpack 0x57E466208E46BFB2) = .ok .transformed clearCo2 0x50 700 ∧
    decodeReport Config.key (unpack 0x77E4F6200E46BFC2) =
      .ok .transformed ⟨0x42, 0x12, 0xC0, 0x14, 0x0D, 0, 0, 0⟩ 0x42 4800 := by decide
/-- A difference of few bits and the spec's 4800, the last value whose difference 53 bits hold, the first that needs
rounding, and one half way between two binary64 values. -/
theorem witness_HostTemperatureIsCorrectlyRounded :
    (tempExact 4370).natAbs < 2 ^ 53 ∧ (tempExact 4800).natAbs < 2 ^ 53 ∧
    (tempExact 12562).natAbs < 2 ^ 53 ∧ 2 ^ 53 ≤ (tempExact 12563).natAbs ∧
    2 ^ 53 ≤ (tempExact 30000).natAbs ∧
    binary64Is (tempC 30000) (tempExact 30000 - 2 ^ (Nat.log2 (tempExact 30000).natAbs - 52 - 1)) = true := by decide
/-- `binary64Is` on patterns known from the format: 1.0, -1.0, 2^-45 and no whole number of units, and two patterns that
differ in the last bit, of which 4800's is the spec's (R105). -/
theorem test_binary64Is : binary64Is 0x3FF0000000000000 (2 ^ 44) = true ∧
    binary64Is 0xBFF0000000000000 (-2 ^ 44) = true ∧ binary64Is 0x3D20000000000000 0 = false ∧
    binary64Is 0x3D20000000000000 1 = false ∧ binary64Is 0x403AD999999999A0 (tempExact 4800) = true ∧
    binary64Is 0x403AD999999999A1 (tempExact 4800) = false := by decide
/-- A transaction of each kind, and both answers of the decoder. -/
theorem witness_OutputPortsShowEveryResult : (Instr.rst true 1).isReset = true ∧
    ((Instr.idle 1).isClocked = true ∧ (Instr.idle 1).isReset = false ∧ (Instr.idle 1).report? = none) ∧
    (Instr.diag 0x50).isClocked = false ∧ (Instr.rptCo2 obfCo2).report? = some obfCo2 ∧
    (Instr.rptChkerr badReport).report? = some badReport := by decide

end Sys2Proof.Tests
end

section
/-! Proofs about the block's state `(CT, OUT)` (10_state.md): a step as the line it takes, the block after a
transaction as a function of the block before it, the two ways the table is written, the pulses, the output ports, and
the level on `in_data` where no edge samples it. -/

namespace Sys2Proof.Machine

/-! ### The line a step takes -/

/-- With no line left the host presents an idle edge, the level on `in_data` as it stands (log entry 2). -/
theorem decode_nextLine_of_no_line {s : State} (h : s.lines = []) : decode s.nextLine = .idle s.pins.inData := by
  rw [State.nextLine, h]
  exact decode_edge_idle _

/-- With no line left there is none to take. -/
theorem dropLine_of_no_line {s : State} (h : s.lines = []) : s.dropLine = s := by
  rw [State.dropLine, h, List.tail_nil, ← h]

/-- Settles O24: the step of a nonempty list of lines is `step_cons`, that of an empty one an idle edge. -/
theorem stepRunsTheDecodedLine : Obligations.StepRunsTheDecodedLine := by
  refine ⟨fun s x rest h => step_cons h, fun s h => ?_⟩
  rw [step, decode_nextLine_of_no_line h, dropLine_of_no_line h]

/-! ### The table and the pulses -/

/-- Settles O36: of the five effects of a step, two write the table. -/
theorem tableIsWrittenInTwoWays : Obligations.TableIsWrittenInTwoWays := by
  intro s t hstep
  unfold isResetLine
  obtain ⟨hreset, -, -, hct, -⟩ | ⟨hreset, hrep, -, hct, -⟩ |
    ⟨hreset, -, raw, path, dec, op, v, hrep, hdec, hct, -⟩ | ⟨hreset, -, raw, att, hrep, hdec, hct, -⟩ |
    ⟨hreset, hrep, -, hct, -⟩ := step_effect hstep
  case inl => simp [hreset, hct, Entry.unseen]
  case inr.inl => simp [hreset, hrep, hct]
  case inr.inr.inl => simp [hreset, hrep, hdec, hct, Memory.read_store]
  case inr.inr.inr.inl => simp [hreset, hrep, hdec, hct]
  case inr.inr.inr.inr => simp [hreset, hrep, hct]

/-- Settles O45: OV and the held registers are read off each of the five effects. -/
theorem pulsesLastOneCycle : Obligations.PulsesLastOneCycle := by
  intro i s
  obtain ⟨t, hexec, -, heffect⟩ := exec_cases i s
  refine ⟨t, hexec, ?_⟩
  obtain ⟨hreset, hrep, hclk, -, hout⟩ | ⟨hreset, hrep, hclk, -, hout⟩ |
    ⟨hreset, hclk, raw, path, dec, op, v, hrep, -, -, hout⟩ | ⟨hreset, hclk, raw, att, hrep, -, -, hout⟩ |
    ⟨hreset, hrep, hclk, -, hout⟩ := heffect
  case inl => simp [hreset, hrep, hclk, hout, Outputs.reset]
  case inr.inl => simp [hreset, hrep, hclk, hout, idleOutputs]
  case inr.inr.inl => simp [hrep, hclk, hout, successOutputs]
  case inr.inr.inr.inl => simp [hrep, hclk, hout, errorOutputs]
  case inr.inr.inr.inr => simp [hclk, hout]

/-! ### The output ports -/

/-- A clocked transaction leaves the level on `diag_addr` as it was (R18). -/
theorem exec_diagAddr_of_clocked {i : Instr} {s t : State} (hclk : i.isClocked = true) (h : exec i s = .next t) :
    t.pins.diagAddr = s.pins.diagAddr := by
  cases hrep : i.report? with
  | some raw =>
    rw [exec_of_report hrep] at h
    cases h
    simp
  | none =>
    cases i <;> cases hclk <;> cases hrep <;> cases h <;> rfl

/-- The registers a successful report loads, its sample written out on the updated table (R97, R101). -/
theorem successOutputs_emissionGate (raw : Report) (path : DecodePath) (dec : Report) (op : Byte) (v : Value)
    (ct : Memory) :
    successOutputs raw path dec op v (emissionGate ct) =
      { ov := true, oe := false, op := path.bit, oop := op, oval := v, oraw := pack raw, odec := pack dec
        sv := bothKnown ct
        sco2 := if bothKnown ct then (ct.read Config.opCo2).value else 0
        stemp := if bothKnown ct then (ct.read Config.opTemp).value else 0 } := by
  cases h : bothKnown ct <;> simp [successOutputs, emissionGate, h]

/-- Settles O51: the registers are those of the transaction's effect, and the diagnostic read is that of the updated
table at an address that only DIAG moves. -/
theorem outputPortsShowEveryResult : Obligations.OutputPortsShowEveryResult := by
  intro i s
  obtain ⟨t, hexec, -, heffect⟩ := exec_cases i s
  refine ⟨t, hexec, ?_⟩
  obtain ⟨hreset, hrep, hclk, hct, hout⟩ | ⟨hreset, hrep, hclk, hct, hout⟩ |
    ⟨hreset, hclk, raw, path, dec, op, v, hrep, hdec, hct, hout⟩ |
    ⟨hreset, hclk, raw, att, hrep, hdec, hct, hout⟩ | ⟨hreset, hrep, hclk, hct, hout⟩ := heffect
  case inl =>
    simp [hreset, hrep, hclk, State.ports, State.diagValid, State.diagValue, hct, hout, Outputs.reset, Entry.unseen]
  case inr.inl =>
    have haddr := exec_diagAddr_of_clocked hclk hexec
    simp [hreset, hrep, hclk, State.ports, State.diagValid, State.diagValue, hct, hout, haddr, idleOutputs]
  case inr.inr.inl =>
    have haddr := exec_diagAddr_of_clocked hclk hexec
    have hread : t.ct.read s.pins.diagAddr = if s.pins.diagAddr = op then ⟨true, v⟩ else s.ct.read s.pins.diagAddr := by
      rw [hct, Memory.read_store]
    rw [successOutputs_emissionGate] at hout
    simp [hreset, hrep, hclk, hdec, State.ports, State.diagValid, State.diagValue, hout, haddr, hread, bothKnown,
      Config.opCo2, Config.opTemp, apply_ite Entry.valid, apply_ite Entry.value]
  case inr.inr.inr.inl =>
    have haddr := exec_diagAddr_of_clocked hclk hexec
    simp [hreset, hrep, hclk, hdec, State.ports, State.diagValid, State.diagValue, hct, hout, haddr, errorOutputs]
  case inr.inr.inr.inr =>
    simp [hreset, hrep, hclk, State.ports, State.diagValid, State.diagValue, hct, hout]

/-! ### The block after a transaction, and the level on `in_data` where no edge samples it -/

@[simp] theorem withLines_block (s : State) (xs : List Stimulus) : (s.withLines xs).block = s.block := rfl

/-- The block `(CT, OUT)` after a transaction, from the block before it (R36): `block_of_exec` ties it to `exec`. It
looks at the transaction's kind and its raw report only, never at a level on the inputs. -/
def blockAfter (i : Instr) (b : Memory × Outputs) : Memory × Outputs :=
  match i.report? with
  | some raw =>
    match decodeReport Config.key raw with
    | .ok path dec op v =>
      (b.1.write op ⟨true, v⟩, successOutputs raw path dec op v (emissionGate (b.1.write op ⟨true, v⟩)))
    | .err _ att => (b.1, errorOutputs raw att)
  | none =>
    if i.isReset then ([], Outputs.reset)
    else if i.isClocked then (b.1, idleOutputs b.2)
    else b

/-- The block after a transaction depends on nothing but the transaction and the block before it. -/
theorem block_of_exec {i : Instr} {s t : State} (h : exec i s = .next t) : t.block = blockAfter i s.block := by
  obtain ⟨u, hu, -, heffect⟩ := exec_cases i s
  rw [h] at hu
  cases hu
  obtain ⟨hreset, hrep, -, hct, hout⟩ | ⟨hreset, hrep, hclk, hct, hout⟩ |
    ⟨-, -, raw, path, dec, op, v, hrep, hdec, hct, hout⟩ | ⟨-, -, raw, att, hrep, hdec, hct, hout⟩ |
    ⟨hreset, hrep, hclk, hct, hout⟩ := heffect
  case inl => simp [blockAfter, State.block, hreset, hrep, hct, hout]
  case inr.inl => simp [blockAfter, State.block, hreset, hrep, hclk, hct, hout]
  case inr.inr.inl => simp [blockAfter, State.block, hrep, hdec, hct, hout]
  case inr.inr.inr.inl => simp [blockAfter, State.block, hrep, hdec, hct, hout]
  case inr.inr.inr.inr => simp [blockAfter, State.block, hreset, hrep, hclk, hct, hout]

/-- Two runs, the one of the other's lines changed by `f`, give the same results and the same block at the end, where
they start from the same block and `f` changes no line's effect on the block and no line's accepting a report. -/
theorem runAll_map_of_same_block {f : Stimulus → Stimulus}
    (hblock : ∀ x b, blockAfter (decode (f x)) b = blockAfter (decode x) b)
    (haccepts : ∀ x, acceptsReport (f x) = acceptsReport x) (xs : List Stimulus) {s s' : State}
    (h : s.block = s'.block) :
    (runAll (xs.map f) s).1 = (runAll xs s').1 ∧ (runAll (xs.map f) s).2.block = (runAll xs s').2.block := by
  induction xs generalizing s s' with
  | nil => simpa using h
  | cons x xs ih =>
    obtain ⟨t, ht, -, -⟩ := exec_cases (decode (f x)) (s.withLines (xs.map f))
    obtain ⟨t', ht', -, -⟩ := exec_cases (decode x) (s'.withLines xs)
    have hnext : t.block = t'.block := by
      rw [block_of_exec ht, block_of_exec ht', hblock, withLines_block, withLines_block, h]
    have hresult : t.result = t'.result := by
      have hout : t.out = t'.out := congrArg Prod.snd hnext
      simp only [State.result, hout]
    obtain ⟨hres, hend⟩ := ih hnext
    rw [List.map_cons, runAll_cons ht, runAll_cons ht', haccepts, hresult, hres, hend]
    exact ⟨rfl, rfl⟩

/-- Another level on `in_data` where the edge samples none leaves the transaction's kind and its raw report as they
were (R18, R51). -/
theorem decode_withUnsampledLevel (w : PortWord) (x : Stimulus) :
    (decode (withUnsampledLevel w x)).report? = (decode x).report? ∧
    (decode (withUnsampledLevel w x)).isReset = (decode x).isReset ∧
    (decode (withUnsampledLevel w x)).isClocked = (decode x).isClocked := by
  cases x with
  | edge ctrl w' =>
    cases hrst : ctrlRst ctrl with
    | true => simp [withUnsampledLevel, decode, hrst, Instr.report?, Instr.isReset, Instr.isClocked]
    | false =>
      cases hvalid : ctrlInValid ctrl with
      | true => simp [withUnsampledLevel, hrst, hvalid]
      | false => simp [withUnsampledLevel, decode, hrst, hvalid, Instr.report?, Instr.isReset, Instr.isClocked]
  | diagPort a => exact ⟨rfl, rfl, rfl⟩
  | transformPort d => exact ⟨rfl, rfl, rfl⟩
  | validatorPort d => exact ⟨rfl, rfl, rfl⟩

/-- A run keeps its results and its block whatever level stands on `in_data` where no edge samples it (R18, D19). -/
theorem runAll_withUnsampledLevel (w : PortWord) (xs : List Stimulus) (s : State) :
    (runAll (xs.map (withUnsampledLevel w)) s).1 = (runAll xs s).1 ∧
    (runAll (xs.map (withUnsampledLevel w)) s).2.block = (runAll xs s).2.block := by
  refine runAll_map_of_same_block (fun x b => ?_) (fun x => ?_) xs rfl
  · obtain ⟨hrep, hreset, hclk⟩ := decode_withUnsampledLevel w x
    simp only [blockAfter, hrep, hreset, hclk]
  · obtain ⟨hrep, -, -⟩ := decode_withUnsampledLevel w x
    simp only [acceptsReport, hrep]

/-- The diagnostic port shows the table and nothing else of the state (R103). -/
theorem diagTable_of_same_table {s s' : State} (h : s.ct = s'.ct) : s.diagTable = s'.diagTable := by
  simp [State.diagTable, State.diagRead, h]

/-- Settles O52: a transaction that samples no `in_data` has the same effect on the block at every level, so by
induction over the lines a run has, and the observation reads results and table only. -/
theorem unsampledInDataIsIgnored : Obligations.UnsampledInDataIsIgnored := by
  refine ⟨runAll_withUnsampledLevel, fun w p => ?_⟩
  obtain ⟨hres, hend⟩ := runAll_withUnsampledLevel w (expandProgram p) State.reset
  have htable : (runAll ((expandProgram p).map (withUnsampledLevel w)) State.reset).2.ct =
      (runAll (expandProgram p) State.reset).2.ct := congrArg Prod.fst hend
  rw [observation, hres, diagTable_of_same_table htable]

end Sys2Proof.Machine
end

section
/-! Proofs about the packing of a report on a 64-bit port (20_memory.md R38): the packed word as a big-endian number,
and a byte of an unpacked word as a base-256 digit of it. -/

namespace Sys2Proof.Machine

/-- One more byte on the right shifts the number by one base-256 digit. -/
theorem toNat_append_byte {n : Nat} (x : BitVec n) (b : Byte) : (x ++ b).toNat = x.toNat * 256 + b.toNat := by
  rw [BitVec.toNat_append, ← Nat.shiftLeft_add_eq_or_of_lt b.isLt, Nat.shiftLeft_eq]

/-- The packed word of a report is the big-endian number of its bytes. -/
theorem pack_toNat (d : Report) : (pack d).toNat =
    (d.get 0).toNat * 256 ^ 7 + (d.get 1).toNat * 256 ^ 6 + (d.get 2).toNat * 256 ^ 5 + (d.get 3).toNat * 256 ^ 4 +
    (d.get 4).toNat * 256 ^ 3 + (d.get 5).toNat * 256 ^ 2 + (d.get 6).toNat * 256 + (d.get 7).toNat := by
  simp only [pack, toNat_append_byte, Report.get]
  ring

/-- Byte `i` of an unpacked word is the digit of weight `256 ^ (7 - i)`: its lowest bit is bit `56 - 8 * i`. -/
theorem unpack_get_toNat (w : PortWord) (i : Fin 8) :
    ((unpack w).get i).toNat = w.toNat / 256 ^ (7 - i.val) % 256 := by
  have hweight : 2 ^ (56 - 8 * i.val) = 256 ^ (7 - i.val) := by
    rw [show 56 - 8 * i.val = 8 * (7 - i.val) by omega, Nat.pow_mul]
  rw [unpack, Report.get_ofFn, BitVec.extractLsb'_toNat, Nat.shiftRight_eq_div_pow, hweight]

/-- Settles O23: `pack` appends its bytes digit by digit, `unpack` extracts each digit, and the example is evaluated. -/
theorem reportPackingIsByteZeroFirst : Obligations.ReportPackingIsByteZeroFirst :=
  ⟨pack_toNat, unpack_get_toNat, by decide⟩

end Sys2Proof.Machine
end

section
/-! Proofs about the class of a report cycle and the order of the events of one edge (30_encoding.md R51, R59). -/

namespace Sys2Proof.Machine

/-! ### The masks of the class table -/

/-- A mask on a port word is a mask on each byte of its report. -/
theorem unpack_and (w m : PortWord) :
    unpack (w &&& m) = Report.ofFn fun i => (unpack w).get i &&& (unpack m).get i := by
  apply Report.ext_get
  intro i
  simp only [unpack, Report.get_ofFn, BitVec.extractLsb'_and]

theorem pack_and (d m : Report) : pack d &&& pack m = pack (Report.ofFn fun i => d.get i &&& m.get i) := by
  rw [← pack_unpack (pack d &&& pack m), unpack_and, unpack_pack, unpack_pack]

/-- A mask byte of ones keeps the byte. -/
theorem and_byte_ones (b : Byte) : b &&& 255#8 = b := BitVec.and_allOnes

/-- Reports with the same packed word are the same report. -/
theorem pack_inj {d d' : Report} : pack d = pack d' ↔ d = d' :=
  ⟨fun h => by rw [← unpack_pack d, h, unpack_pack], congrArg pack⟩

/-- The mask of classes 2 and 3 compares the opcode and the terminator field (R59). -/
theorem pack_matches_opcode_term (d : Report) (op t : Byte) :
    pack d &&& 0xFF000000FF000000 = pack ⟨op, 0, 0, 0, t, 0, 0, 0⟩ ↔ opcodeOf d = op ∧ terminatorOf d = t := by
  have hmask : (0xFF000000FF000000 : PortWord) = pack ⟨0xFF, 0, 0, 0, 0xFF, 0, 0, 0⟩ := by decide
  rw [hmask, pack_and, pack_inj]
  simp [Report.ofFn, Report.get, opcodeOf, terminatorOf, and_byte_ones]

/-- The mask of class 4 compares the terminator field alone (R59). -/
theorem pack_matches_term (d : Report) (t : Byte) :
    pack d &&& 0x00000000FF000000 = pack ⟨0, 0, 0, 0, t, 0, 0, 0⟩ ↔ terminatorOf d = t := by
  have hmask : (0x00000000FF000000 : PortWord) = pack ⟨0, 0, 0, 0, 0xFF, 0, 0, 0⟩ := by decide
  rw [hmask, pack_and, pack_inj]
  simp [Report.ofFn, Report.get, terminatorOf, and_byte_ones]

/-! ### The class of a report -/

/-- A decoded report's class is that of its opcode (R59, R60). -/
theorem classify_of_ok {raw dec : Report} {path : DecodePath} {op : Byte} {v : Value}
    (h : decodeReport Config.key raw = .ok path dec op v) : classify raw = classOfOpcode (opcodeOf dec) := by
  obtain ⟨rfl, -⟩ := decodeReport_ok h
  rw [classify, h]

/-- A report that the decoder rejects is of class CHKERR (R59). -/
theorem classify_of_err {raw raw' att : Report} (h : decodeReport Config.key raw = .err raw' att) :
    classify raw = .chkerr := by
  rw [classify, h]

/-- The class of each opcode (R59, classes 2 to 4). -/
theorem classOfOpcode_cases (op : Byte) :
    (op = 0x50 ∧ classOfOpcode op = .co2) ∨ (op = 0x42 ∧ classOfOpcode op = .temp) ∨
    ((op ≠ 0x50 ∧ op ≠ 0x42) ∧ classOfOpcode op = .unknown) := by
  by_cases hco2 : op = 0x50
  · exact .inl ⟨hco2, if_pos hco2⟩
  · by_cases htemp : op = 0x42
    · exact .inr (.inl ⟨htemp, (if_neg hco2).trans (if_pos htemp)⟩)
    · exact .inr (.inr ⟨⟨hco2, htemp⟩, (if_neg hco2).trans (if_neg htemp)⟩)

theorem classOfOpcode_ne_chkerr (op : Byte) : classOfOpcode op ≠ .chkerr := by
  obtain ⟨-, h⟩ | ⟨-, h⟩ | ⟨-, h⟩ := classOfOpcode_cases op <;> simp [h]

theorem classOfOpcode_eq_co2 (op : Byte) : classOfOpcode op = .co2 ↔ op = 0x50 := by
  obtain ⟨rfl, h⟩ | ⟨rfl, h⟩ | ⟨hne, h⟩ := classOfOpcode_cases op
  · rw [h]; decide
  · rw [h]; decide
  · simpa [h] using hne.1

theorem classOfOpcode_eq_temp (op : Byte) : classOfOpcode op = .temp ↔ op = 0x42 := by
  obtain ⟨rfl, h⟩ | ⟨rfl, h⟩ | ⟨hne, h⟩ := classOfOpcode_cases op
  · rw [h]; decide
  · rw [h]; decide
  · simpa [h] using hne.2

theorem classOfOpcode_eq_unknown (op : Byte) : classOfOpcode op = .unknown ↔ op ≠ 0x50 ∧ op ≠ 0x42 := by
  obtain ⟨rfl, h⟩ | ⟨rfl, h⟩ | ⟨hne, h⟩ := classOfOpcode_cases op
  · rw [h]; decide
  · rw [h]; decide
  · simpa [h] using hne

/-- The class CHKERR is the failure of both checks (R59, R87). -/
theorem classify_eq_chkerr (raw : Report) :
    classify raw = .chkerr ↔ checksumOk raw = false ∧ checksumOk (decrypt Config.key raw) = false := by
  obtain ⟨hraw, hdec⟩ | ⟨hraw, hcand, hdec⟩ | ⟨hraw, hcand, hdec⟩ := decodeReport_cases Config.key raw
  case inl => simp [classify_of_ok hdec, classOfOpcode_ne_chkerr, hraw]
  case inr.inl => simp [classify_of_ok hdec, classOfOpcode_ne_chkerr, hcand]
  case inr.inr => simp [classify_of_err hdec, hraw, hcand]

/-- A row of the class table: where, for reports that pass the check, the opcode's class is `c` exactly when the row's
condition `row` holds, a raw report is of class `c` exactly when it decodes to a report that meets the condition. -/
theorem classify_eq_iff_row {c : ReportClass} {row : Report → Prop} (hc : c ≠ .chkerr)
    (hrow : ∀ dec, checksumOk dec = true → (classOfOpcode (opcodeOf dec) = c ↔ row dec)) (raw : Report) :
    classify raw = c ↔ ∃ path dec op v, decodeReport Config.key raw = .ok path dec op v ∧ row dec := by
  cases hdec : decodeReport Config.key raw with
  | ok path dec op v =>
    obtain ⟨-, -, hok, -⟩ := decodeReport_ok hdec
    rw [classify_of_ok hdec, hrow dec hok]
    simp
  | err raw' att =>
    rw [classify_of_err hdec]
    simp [hc.symm]

/-- The row of classes 2 and 3: for a report that passes the check, its mask, word and sum say what the opcode is. -/
theorem opcodeOf_eq_iff_row {dec : Report} (hok : checksumOk dec = true) (op : Byte) :
    opcodeOf dec = op ↔ pack dec &&& 0xFF000000FF000000 = pack ⟨op, 0, 0, 0, Config.term, 0, 0, 0⟩ ∧
      sumOf dec % 256 = (checksumOf dec).toNat := by
  obtain ⟨hterm, hsum⟩ := (checksumOk_eq_true dec).mp hok
  rw [pack_matches_opcode_term]
  simp only [hterm, hsum, and_true]

/-- The row of class 4: a report that passes the check meets its mask, word and sum. -/
theorem unknown_row_of_checksumOk {dec : Report} (hok : checksumOk dec = true) :
    pack dec &&& 0x00000000FF000000 = pack ⟨0, 0, 0, 0, Config.term, 0, 0, 0⟩ ∧
      sumOf dec % 256 = (checksumOf dec).toNat := by
  obtain ⟨hterm, hsum⟩ := (checksumOk_eq_true dec).mp hok
  exact ⟨(pack_matches_term dec Config.term).mpr hterm, hsum⟩

/-- The edge of a report decodes to the constructor of the report's class (R59). -/
theorem decode_edge_pack (raw : Report) :
    decode (.edge (ctrlWord false true) (pack raw)) =
      match classify raw with
      | .chkerr => .rptChkerr raw
      | .co2 => .rptCo2 raw
      | .temp => .rptTemp raw
      | .unknown => .rptUnknown raw := by
  rw [decode_edge_report, unpack_pack, decodeReportLine]
  cases classify raw <;> rfl

/-- Settles O14: each row's mask compares the opcode and the terminator, which with the sum are what a decoded report
has by passing the check. -/
theorem reportClassFollowsTable : Obligations.ReportClassFollowsTable := by
  intro raw
  refine ⟨decode_edge_pack raw, classify_eq_chkerr raw, ?co2, ?temp, ?unknown⟩
  case co2 =>
    refine classify_eq_iff_row (by decide) (fun dec hok => (classOfOpcode_eq_co2 _).trans ?_) raw
    exact opcodeOf_eq_iff_row hok 0x50
  case temp =>
    refine classify_eq_iff_row (by decide) (fun dec hok => (classOfOpcode_eq_temp _).trans ?_) raw
    exact opcodeOf_eq_iff_row hok 0x42
  case unknown =>
    refine classify_eq_iff_row (by decide) (fun dec hok => (classOfOpcode_eq_unknown _).trans ?_) raw
    obtain ⟨hmatch, hsum⟩ := unknown_row_of_checksumOk hok
    exact ⟨fun hop => ⟨hmatch, hsum, hop⟩, fun hrow => hrow.2.2⟩

/-! ### The order of the events of one rising edge -/

/-- What a report edge leaves of the block for each answer of the decoder, `w` standing on `in_data` (R101, R113). -/
theorem reportEdge_unpack_cases (s : State) (w : PortWord) :
    (s.reportEdge (unpack w)).out.ov = true ∧ (s.reportEdge (unpack w)).out.oraw = w ∧
    if checksumOk (unpack w) = true then
      (s.reportEdge (unpack w)).out.oe = false ∧ (s.reportEdge (unpack w)).out.op = false ∧
      (s.reportEdge (unpack w)).out.odec = w ∧
      (s.reportEdge (unpack w)).ct = s.ct.write (opcodeOf (unpack w)) ⟨true, valueOf (unpack w)⟩
    else if checksumOk (decrypt Config.key (unpack w)) = true then
      (s.reportEdge (unpack w)).out.oe = false ∧ (s.reportEdge (unpack w)).out.op = true ∧
      (s.reportEdge (unpack w)).out.odec = pack (decrypt Config.key (unpack w)) ∧
      (s.reportEdge (unpack w)).ct = s.ct.write (opcodeOf (decrypt Config.key (unpack w)))
        ⟨true, valueOf (decrypt Config.key (unpack w))⟩
    else
      (s.reportEdge (unpack w)).out = errorOutputs (unpack w) (decrypt Config.key (unpack w)) ∧
      (s.reportEdge (unpack w)).ct = s.ct := by
  obtain ⟨hraw, hdec⟩ | ⟨hraw, hcand, hdec⟩ | ⟨hraw, hcand, hdec⟩ := decodeReport_cases Config.key (unpack w)
  case inl => simp [reportEdge_of_ok s hdec, hraw, successOutputs, DecodePath.bit]
  case inr.inl => simp [reportEdge_of_ok s hdec, hraw, hcand, successOutputs, DecodePath.bit]
  case inr.inr => simp [reportEdge_of_err s hdec, hraw, hcand, errorOutputs]

/-- Settles O17: the control word's bits select the transaction, and a report's two checks its outcome. -/
theorem oneEdgeTakesResetThenReportThenIdle : Obligations.OneEdgeTakesResetThenReportThenIdle := by
  intro ctrl w rest s hlines
  obtain ⟨rst, valid, rfl⟩ : ∃ rst valid, ctrl = ctrlWord rst valid := ⟨_, _, (ctrlWord_bits ctrl).symm⟩
  have hrst : (ctrlWord rst valid).getLsbD 1 = rst := ctrlRst_ctrlWord rst valid
  have hvalid : (ctrlWord rst valid).getLsbD 0 = valid := ctrlInValid_ctrlWord rst valid
  rw [step_cons hlines, hrst, hvalid]
  cases rst with
  | true =>
    rw [decode_edge_rst]
    exact ⟨_, rfl, rfl, (if_pos rfl).mpr rfl⟩
  | false =>
    cases valid with
    | true =>
      rw [decode_edge_report, exec_of_report (decodeReportLine_report? _)]
      exact ⟨_, rfl, reportEdge_lines _ _, reportEdge_unpack_cases _ w⟩
    | false =>
      rw [decode_edge_idle]
      exact ⟨_, rfl, rfl, rfl⟩

end Sys2Proof.Machine
end

section
/-! Proofs about clear and obfuscated reports of an opcode and a value (30_encoding.md R64, R65): the fields of a clear
report, the inverse of the transform as a right inverse, and the bytes of an obfuscated report that keep its raw form
from reading as the opcode and value it was written for. -/

namespace Sys2Proof.Machine

/-! ### Clear reports -/

/-- The high byte of a value, as a number (R39). -/
theorem toNat_highByte (v : Value) : ((v >>> 8).setWidth 8 : Byte).toNat = v.toNat / 256 := by
  have hv := v.isLt
  rw [BitVec.toNat_setWidth, BitVec.toNat_ushiftRight, Nat.shiftRight_eq_div_pow]
  omega

/-- The low byte of a value, as a number (R39). -/
theorem toNat_lowByte (v : Value) : (v.setWidth 8 : Byte).toNat = v.toNat % 256 :=
  BitVec.toNat_setWidth 8 v

/-- The value field's high byte is byte 1 (R55). -/
theorem highByte_valueOf (d : Report) : ((valueOf d >>> 8).setWidth 8 : Byte) = d.get 1 := by
  apply BitVec.eq_of_getLsbD_eq
  intro j hj
  simp [valueOf, hj, show 8 + j < 16 by omega, show j < 16 by omega]

@[simp] theorem opcodeOf_plain (op : Byte) (v : Value) : opcodeOf (plain op v) = op := rfl

@[simp] theorem valueOf_plain (op : Byte) (v : Value) : valueOf (plain op v) = v := by
  apply BitVec.eq_of_getLsbD_eq
  intro j hj
  by_cases hlow : j < 8
  · simp [valueOf, plain, Report.get, hj, hlow]
  · simp [valueOf, plain, Report.get, hj, hlow, show j - 8 < 8 by omega, show j - 8 < 16 by omega,
      show 8 + (j - 8) = j by omega]

/-- The checksum byte of a clear report, on integers (R64). -/
theorem toNat_checksumOf_plain (op : Byte) (v : Value) :
    (checksumOf (plain op v)).toNat = (op.toNat + v.toNat / 256 + v.toNat % 256) % 256 := by
  change (op + (v >>> 8).setWidth 8 + v.setWidth 8).toNat = _
  rw [BitVec.toNat_add, BitVec.toNat_add, toNat_highByte, toNat_lowByte, Nat.mod_add_mod]

/-- A clear report always passes the check (R64). -/
@[simp] theorem checksumOk_plain (op : Byte) (v : Value) : checksumOk (plain op v) = true := by
  rw [checksumOk_eq_true, toNat_checksumOf_plain, ← toNat_highByte, ← toNat_lowByte]
  exact ⟨rfl, rfl⟩

/-- A report that passes the check is decoded unmodified (R85). -/
theorem decodeReport_of_checksumOk {key raw : Report} (h : checksumOk raw = true) :
    decodeReport key raw = .ok .clear raw (opcodeOf raw) (valueOf raw) :=
  if_pos h

/-- Settles O33: the bytes are `plain`'s own, and the check makes the decoder take them as they are. -/
theorem clearReportsDecodeUnmodified : Obligations.ClearReportsDecodeUnmodified := by
  intro op v
  have hdecode := decodeReport_of_checksumOk (key := Config.key) (checksumOk_plain op v)
  rw [opcodeOf_plain, valueOf_plain] at hdecode
  exact ⟨rfl, toNat_highByte v, toNat_lowByte v, toNat_checksumOf_plain op v, rfl, rfl, rfl, rfl, checksumOk_plain op v,
    hdecode, rfl, rfl, rfl⟩

/-! ### The inverse of the transform -/

/-- The scatter of stage 1 is a gather, the shuffle being its own inverse (R74). -/
theorem phase1_get (data : Report) (j : Fin 8) : (phase1 data).get j = data.get (Config.shuffle j) := by
  fin_cases j <;> rfl

theorem shuffle_shuffle (i : Fin 8) : Config.shuffle (Config.shuffle i) = i := by
  revert i
  decide

/-- Stage 3's mix of two neighbouring bytes undoes the inverse's mix, which takes them from three. -/
theorem mix_unmix (a b c : Byte) :
    ((((b &&& 0x1F) <<< 3) ||| (c >>> 5)) >>> 3) ||| ((((a &&& 0x1F) <<< 3) ||| (b >>> 5)) <<< 5) = b := by
  apply BitVec.eq_of_getLsbD_eq
  intro j hj
  interval_cases j <;> simp

/-- A byte of the derived inverse, from the two bytes of the plain report that it is made of (R76). -/
theorem enc_get (key p : Report) (i : Fin 8) : (enc key p).get i =
    ((((p.get (Config.shuffle i) + ctmp.get (Config.shuffle i)) &&& 0x1F) <<< 3) |||
      ((p.get (Config.shuffle i + 1) + ctmp.get (Config.shuffle i + 1)) >>> 5)) ^^^ key.get (Config.shuffle i) := by
  simp only [enc, Report.get_ofFn]

/-- The derived inverse is a right inverse of the transform, for every key (R76). -/
theorem decrypt_enc (key p : Report) : decrypt key (enc key p) = p := by
  apply Report.ext_get
  intro i
  simp only [decrypt, phase4, phase3, phase2, phase1_get, Report.get_ofFn, enc_get, shuffle_shuffle, BitVec.xor_assoc,
    BitVec.xor_self, BitVec.xor_zero, sub_add_cancel, mix_unmix, BitVec.add_sub_cancel]

/-! ### Obfuscated reports -/

/-- An obfuscated report whose raw form fails the check decodes to what it was written for (R65, R86). -/
theorem decodeReport_enc_plain {key : Report} {op : Byte} {v : Value}
    (hraw : checksumOk (enc key (plain op v)) = false) :
    decodeReport key (enc key (plain op v)) = .ok .transformed (plain op v) op v := by
  simp [decodeReport, hraw, decrypt_enc, extractFields]

/-- Byte 1 of an obfuscated report is made of the terminator and a pad: the same for every opcode and value. -/
theorem enc_plain_get_one (op : Byte) (v : Value) : (enc Config.key (plain op v)).get 1 = 0xE4 := by
  rw [enc_get]
  change (((Config.term + ctmp.get 4) &&& 0x1F) <<< 3 ||| (0 + ctmp.get 5) >>> 5) ^^^ Config.key.get 4 = 0xE4
  decide

/-- The terminator field of an obfuscated report is made of the bytes of the value. -/
theorem terminatorOf_enc_plain (op : Byte) (v : Value) :
    terminatorOf (enc Config.key (plain op v)) =
      (((((v >>> 8).setWidth 8 + 0x47) &&& 0x1F) <<< 3) ||| ((v.setWidth 8 + 0x56) >>> 5)) ^^^ 0xC6 :=
  enc_get Config.key (plain op v) 4

/-- A raw form that passes the check does not carry the value it was written for: that value's high byte would be the
constant 0xE4, and then bit 7 of the terminator field would be 1. -/
theorem valueOf_enc_plain_ne {op : Byte} {v : Value} (hok : checksumOk (enc Config.key (plain op v)) = true) :
    valueOf (enc Config.key (plain op v)) ≠ v := by
  intro hv
  have hhigh : ((v >>> 8).setWidth 8 : Byte) = 0xE4 := by
    rw [← enc_plain_get_one op v, ← highByte_valueOf, hv]
  obtain ⟨hterm, -⟩ := (checksumOk_eq_true _).mp hok
  rw [terminatorOf_enc_plain, hhigh] at hterm
  have hbit := congrArg (BitVec.getLsbD · 7) hterm
  simp [Config.term] at hbit

/-- Settles O34: `decrypt_enc` makes the candidate the plain report, and `valueOf_enc_plain_ne` keeps the raw form from
carrying the value. -/
theorem obfuscatedReportsDecodeUnlessTheyLookClear : Obligations.ObfuscatedReportsDecodeUnlessTheyLookClear := by
  intro op v
  refine ⟨decodeReport_enc_plain, fun hraw => ⟨decodeReport_of_checksumOk hraw, fun hsame => ?_⟩, rfl, rfl, rfl,
    by decide⟩
  exact valueOf_enc_plain_ne hraw (congrArg Prod.snd hsame)

end Sys2Proof.Machine
end

section
/-! Proofs about the Obfuscation Transform and the validator (40_transform.md): the stages on integers, each output byte
from its two input bytes, the derived inverse, stage 3 as a rotate of the packed report, and the two combinational rows
that show the units' answers. -/

namespace Sys2Proof.Machine

/-! ### The units on integers -/

/-- A mask of ones keeps the low byte of a number. -/
theorem nat_and_byte_ones (n : Nat) : n &&& 0xFF = n % 256 := Nat.and_two_pow_sub_one_eq_mod n 8

/-- A byte shifted down beside a byte shifted up, as stages 3 and 4a have it, on integers (R70, R71). -/
theorem toNat_ushiftRight_or_shiftLeft (a b : Byte) (m n : Nat) :
    ((a >>> m) ||| (b <<< n)).toNat = ((a.toNat >>> m) ||| (b.toNat <<< n)) &&& 0xFF := by
  have ha : a.toNat >>> m < 2 ^ 8 := (Nat.shiftRight_le _ _).trans_lt a.isLt
  rw [BitVec.toNat_or, BitVec.toNat_ushiftRight, BitVec.toNat_shiftLeft, nat_and_byte_ones, ← Nat.mod_eq_of_lt ha,
    ← Nat.or_mod_two_pow, Nat.mod_eq_of_lt ha]

/-- A byte of the inverse's mix, on integers: five bits shifted up leave no bit above the byte (R76). -/
theorem toNat_unmix (x y : Byte) :
    (((x &&& 0x1F) <<< 3) ||| (y >>> 5)).toNat = ((x.toNat &&& 0x1F) <<< 3) ||| (y.toNat >>> 5) := by
  have hlow : x.toNat &&& 0x1F ≤ 0x1F := Nat.and_le_right
  have hfits : (x.toNat &&& 0x1F) <<< 3 < 2 ^ 8 := by
    rw [Nat.shiftLeft_eq]
    omega
  rw [BitVec.toNat_or, BitVec.toNat_shiftLeft, BitVec.toNat_ushiftRight, BitVec.toNat_and]
  exact congrArg (· ||| _) (Nat.mod_eq_of_lt hfits)

/-- The modular subtraction of stage 4 on integers (R72). -/
theorem toNat_sub_byte (a b : Byte) : (a - b).toNat = (0x100 + a.toNat - b.toNat) &&& 0xFF := by
  have hb := b.isLt
  rw [nat_and_byte_ones, BitVec.toNat_sub]
  omega

/-- Byte `i` after stage 2 (R69). -/
theorem phase2_get (key p1 : Report) (i : Fin 8) : (phase2 key p1).get i = p1.get i ^^^ key.get i := by
  rw [phase2, Report.get_ofFn]

/-- Byte `i` after stage 3 (R70). -/
theorem phase3_get (p2 : Report) (i : Fin 8) : (phase3 p2).get i = (p2.get i >>> 3) ||| (p2.get (i - 1) <<< 5) := by
  rw [phase3, Report.get_ofFn]

/-- Byte `i` after stage 4 (R72). -/
theorem phase4_get (p3 : Report) (i : Fin 8) : (phase4 p3).get i = p3.get i - ctmp.get i := by
  rw [phase4, Report.get_ofFn]

/-- Byte `i` of CTMP on integers (R71). -/
theorem toNat_ctmp_get (i : Fin 8) : (ctmp.get i).toNat =
    (((Config.cstate.get i).toNat >>> 4) ||| ((Config.cstate.get i).toNat <<< 4)) &&& 0xFF := by
  rw [ctmp, Report.get_ofFn, toNat_ushiftRight_or_shiftLeft]

/-- The transform follows the stage formulas, its own stages being the bytes between (R68 to R72). -/
theorem followsStages_decrypt (key data : Report) : FollowsStages key data (decrypt key data) := by
  refine ⟨fun i => ((phase1 data).get i).toNat, fun i => ((phase2 key (phase1 data)).get i).toNat,
    fun i => ((phase3 (phase2 key (phase1 data))).get i).toNat, ?scatter, ?xor, ?mix, ?sub⟩ <;> intro i
  case scatter => simp only [phase1_get, shuffle_shuffle]
  case xor => simp only [phase2_get, BitVec.toNat_xor]
  case mix => simp only [phase3_get, toNat_ushiftRight_or_shiftLeft]
  case sub => simp only [decrypt, phase4_get, toNat_sub_byte, toNat_ctmp_get]

/-- Settles O6: the formulas are `followsStages_decrypt`, the list the gather of `phase1_get`, CTMP is evaluated. -/
theorem transformFollowsStageFormulas : Obligations.TransformFollowsStageFormulas := by
  refine ⟨followsStages_decrypt, fun data => Report.ext_get fun i => ?_, by decide⟩
  rw [phase1_get]
  fin_cases i <;> rfl

/-! ### The combinational rows -/

/-- A report put on `in_data` is what the transform answers to (R67). -/
@[simp] theorem driveData_transformOut (s : State) (data : Report) :
    (s.driveData (pack data)).transformOut = decrypt Config.key data := by
  simp [State.transformOut]

/-- A report put on `in_data` is what the validator answers to (R78). -/
@[simp] theorem driveData_rawCheck (s : State) (d : Report) : (s.driveData (pack d)).rawCheck = checksumOk d := by
  simp [State.rawCheck]

/-- Settles O5: the row puts its report on `in_data`, and the transform's answer to it follows the stages. -/
theorem decryptRowGivesStages : Obligations.DecryptRowGivesStages := by
  intro data s
  refine ⟨s.driveData (pack data), rfl, ?_, rfl, rfl, rfl, rfl⟩
  rw [driveData_transformOut]
  exact followsStages_decrypt Config.key data

/-- Settles O7: the row puts its report on `in_data`, and the validator's answer to it is its two tests. -/
theorem chksumRowTestsTerminatorAndSum : Obligations.ChksumRowTestsTerminatorAndSum := by
  intro d s
  refine ⟨s.driveData (pack d), rfl, ?_, ?_, rfl, rfl, rfl, rfl⟩
  · rw [driveData_rawCheck]
    exact checksumOk_eq_true d
  · have h0 := (d.get 0).isLt
    have h1 := (d.get 1).isLt
    have h2 := (d.get 2).isLt
    omega

/-! ### The shuffle, and the two input bytes of an output byte -/

/-- Settles O30: the four swaps are read off the table, and the gather is `phase1_get`. -/
theorem shuffleIsAnInvolution : Obligations.ShuffleIsAnInvolution :=
  ⟨shuffle_shuffle, rfl, rfl, rfl, rfl, phase1_get⟩

/-- A byte of the transform, from the two bytes of the report that it is made of (R81). -/
theorem decrypt_get (key data : Report) (i : Fin 8) : (decrypt key data).get i =
    (((data.get (Config.shuffle i) ^^^ key.get i) >>> 3) |||
      ((data.get (Config.shuffle (i - 1)) ^^^ key.get (i - 1)) <<< 5)) - ctmp.get i := by
  simp only [decrypt, phase4_get, phase3_get, phase2_get, phase1_get]

/-- The two bytes that an output byte is made of stand at different places (R81). -/
theorem shuffle_ne_shuffle_sub_one (i : Fin 8) : Config.shuffle i ≠ Config.shuffle (i - 1) := by
  revert i
  decide

/-- Stage 3 shows bit 3 of its first byte as bit 0, so the complement of that byte is seen. -/
theorem mix_compl_left_ne (a b k : Byte) :
    ((~~~a ^^^ k) >>> 3) ||| (b <<< 5) ≠ ((a ^^^ k) >>> 3) ||| (b <<< 5) := by
  intro h
  have hbit := congrArg (BitVec.getLsbD · 0) h
  simp at hbit

/-- Stage 3 shows bit 0 of its second byte as bit 5, so the complement of that byte is seen. -/
theorem mix_compl_right_ne (a b k : Byte) :
    (a >>> 3) ||| ((~~~b ^^^ k) <<< 5) ≠ (a >>> 3) ||| ((b ^^^ k) <<< 5) := by
  intro h
  have hbit := congrArg (BitVec.getLsbD · 5) h
  simp at hbit

/-- The complement of byte `SHUFFLE[i]` changes output byte `i`. -/
theorem decrypt_get_set_shuffle_ne (key d : Report) (i : Fin 8) :
    (decrypt key (d.set (Config.shuffle i) (~~~d.get (Config.shuffle i)))).get i ≠ (decrypt key d).get i := by
  rw [decrypt_get, decrypt_get, Report.get_set, Report.get_set, if_pos rfl,
    if_neg (shuffle_ne_shuffle_sub_one i).symm, Ne, sub_left_inj]
  exact mix_compl_left_ne _ _ _

/-- The complement of byte `SHUFFLE[i-1]` changes output byte `i`. -/
theorem decrypt_get_set_shuffle_sub_one_ne (key d : Report) (i : Fin 8) :
    (decrypt key (d.set (Config.shuffle (i - 1)) (~~~d.get (Config.shuffle (i - 1))))).get i ≠
      (decrypt key d).get i := by
  rw [decrypt_get, decrypt_get, Report.get_set, Report.get_set, if_neg (shuffle_ne_shuffle_sub_one i), if_pos rfl,
    Ne, sub_left_inj]
  exact mix_compl_right_ne _ _ _

/-- The validator reads bytes 0 to 4 only (R58, R81). -/
theorem checksumOk_congr {d d' : Report} (h : ∀ i : Fin 8, i.val ≤ 4 → d.get i = d'.get i) :
    checksumOk d = checksumOk d' := by
  unfold checksumOk terminatorOf sumOf checksumOf
  rw [h 0 (by decide), h 1 (by decide), h 2 (by decide), h 3 (by decide), h 4 (by decide)]

/-- Settles O31: `decrypt_get` names the two bytes, and the complement of either is seen in the output byte. -/
theorem outputByteDependsOnTwoInputBytes : Obligations.OutputByteDependsOnTwoInputBytes := by
  refine ⟨fun key d d' i h h' => ?_, shuffle_ne_shuffle_sub_one,
    fun key d i => ⟨⟨_, decrypt_get_set_shuffle_ne key d i⟩, ⟨_, decrypt_get_set_shuffle_sub_one_ne key d i⟩⟩,
    fun d d' h => checksumOk_congr h⟩
  rw [decrypt_get, decrypt_get, h, h']

/-! ### The derived inverse -/

/-- The inverse's mix of two neighbouring bytes undoes stage 3's mix, which made them from three. -/
theorem unmix_mix (a b c : Byte) :
    ((((b >>> 3) ||| (a <<< 5)) &&& 0x1F) <<< 3) ||| (((c >>> 3) ||| (b <<< 5)) >>> 5) = b := by
  apply BitVec.eq_of_getLsbD_eq
  intro j hj
  interval_cases j <;> simp

/-- The derived inverse is a left inverse of the transform, for every key (R76). -/
theorem enc_decrypt (key d : Report) : enc key (decrypt key d) = d := by
  apply Report.ext_get
  intro i
  simp only [enc_get, decrypt_get, sub_add_cancel, add_sub_cancel_right, unmix_mix, BitVec.xor_assoc, BitVec.xor_self,
    BitVec.xor_zero, shuffle_shuffle]

/-- The derived inverse follows the formulas of its rule (R76). -/
theorem followsInverse_enc (key p : Report) : FollowsInverse key p (enc key p) := by
  refine ⟨fun i => (p.get i + ctmp.get i).toNat, _, _, ?sum, fun _ => rfl, fun _ => rfl, ?gather⟩ <;> intro i
  case sum => exact BitVec.toNat_add _ _
  case gather => rw [enc_get, BitVec.toNat_xor, toNat_unmix]

/-- Settles O28: `enc` undoes the transform from either side, so the transform is injective and surjective. -/
theorem transformIsABijection : Obligations.TransformIsABijection := by
  intro key
  refine ⟨⟨?_, ?_⟩, fun p => ⟨followsInverse_enc key p, decrypt_enc key p, enc_decrypt key p⟩⟩
  · exact Function.LeftInverse.injective (enc_decrypt key)
  · exact Function.RightInverse.surjective (decrypt_enc key)

/-- The rule's example report and its image (R77). -/
theorem decrypt_clear_example :
    decrypt Config.key ⟨0x50, 0x02, 0xBC, 0x0E, 0x0D, 0, 0, 0⟩ =
      ⟨0x8B, 0xD2, 0x1C, 0x3C, 0x41, 0xB1, 0xE8, 0x3D⟩ := by
  decide

/-- Settles O32: the rule's example is not given back by a second application. -/
theorem transformIsNotSelfInverse : Obligations.TransformIsNotSelfInverse := by
  refine ⟨⟨⟨0x50, 0x02, 0xBC, 0x0E, 0x0D, 0, 0, 0⟩, ?_⟩, decrypt_clear_example, by decide⟩
  rw [decrypt_clear_example]
  decide

/-! ### Stage 3 on the packed report -/

/-- Bit `j` of byte `i` is bit `56 - 8 * i + j` of the packed word (R38). -/
theorem getLsbD_pack (d : Report) (i : Fin 8) {j : Nat} (hj : j < 8) :
    (pack d).getLsbD (56 - 8 * i.val + j) = (d.get i).getLsbD j := by
  conv_rhs => rw [← unpack_pack d, unpack, Report.get_ofFn, BitVec.getLsbD_extractLsb']
  simp [hj]

/-- Stage 3 keeps a byte's upper five bits, moved down by 3. -/
theorem getLsbD_phase3_low (p2 : Report) (i : Fin 8) {j : Nat} (hj : j < 5) :
    ((phase3 p2).get i).getLsbD j = (p2.get i).getLsbD (j + 3) := by
  simp [phase3_get, hj, add_comm]

/-- Stage 3 puts the lower three bits of the byte before on top. -/
theorem getLsbD_phase3_high (p2 : Report) (i : Fin 8) {j : Nat} (hj : 5 ≤ j) (hj' : j < 8) :
    ((phase3 p2).get i).getLsbD j = (p2.get (i - 1)).getLsbD (j - 5) := by
  have hout : 8 ≤ 3 + j := by omega
  have hin : j - 5 < 8 := by omega
  simp [phase3_get, hj.not_gt, hj', hout, hin]

/-- Bit `n` of a port word rotated right by 3. -/
theorem getLsbD_rotate (w : PortWord) {n : Nat} (hn : n < 64) :
    ((w >>> 3) ||| (w <<< 61)).getLsbD n = if n < 61 then w.getLsbD (n + 3) else w.getLsbD (n - 61) := by
  by_cases hlow : n < 61
  · simp [hlow, add_comm]
  · have hout : 64 ≤ 3 + n := by omega
    have hin : n - 61 < 64 := by omega
    simp [hlow, hn, hout, hin]

/-- The packed report after stage 3 has at bit `j` of byte `i` what the rotate of the packed report has there: for the
lower five bits the same byte's, for the upper three the byte's before, which for byte 0 is byte 7. -/
theorem getLsbD_rotate_pack (p2 : Report) (i : Fin 8) {j : Nat} (hj : j < 8) :
    ((pack p2 >>> 3) ||| (pack p2 <<< 61)).getLsbD (56 - 8 * i.val + j) = ((phase3 p2).get i).getLsbD j := by
  rw [getLsbD_rotate _ (by omega)]
  by_cases hlow : j < 5
  · rw [if_pos (by omega), getLsbD_phase3_low p2 i hlow, ← getLsbD_pack p2 i (by omega), add_assoc]
  · rw [getLsbD_phase3_high p2 i (by omega) hj, ← getLsbD_pack p2 (i - 1) (by omega)]
    by_cases hzero : i = 0
    · have hval : i.val = 0 := congrArg Fin.val hzero
      have hbefore : (i - 1).val = 7 := by rw [hzero]; rfl
      rw [if_neg (by omega)]
      exact congrArg _ (by omega)
    · have hpos : i.val ≠ 0 := fun h => hzero (Fin.ext h)
      rw [if_pos (by omega), Fin.val_sub_one_of_ne_zero hzero]
      exact congrArg _ (by omega)

/-- Settles O29: the two packed words have the same bits, byte by byte. -/
theorem stageThreeIsARotate : Obligations.StageThreeIsARotate := by
  intro p2
  rw [← pack_unpack ((pack p2 >>> 3) ||| (pack p2 <<< 61)), pack_inj]
  refine Report.ext_get fun i => BitVec.eq_of_getLsbD_eq fun j hj => ?_
  rw [unpack, Report.get_ofFn, BitVec.getLsbD_extractLsb', decide_eq_true hj, Bool.true_and,
    getLsbD_rotate_pack p2 i hj]

end Sys2Proof.Machine
end

section
/-! Proofs about the Report Decoder (41_decoder.md): the order in which it tries its two checks, the fields it extracts
on integers, the one pair of checksum and terminator that passes the check, and the registers of a report edge that the
state before it does not reach. -/

namespace Sys2Proof.Machine

/-! ### The policy and the fields -/

/-- A report that fails the check, where its candidate passes, is decoded as the candidate (R86). -/
theorem decodeReport_of_candidate_checksumOk {key raw : Report} (hraw : checksumOk raw = false)
    (hcand : checksumOk (decrypt key raw) = true) :
    decodeReport key raw =
      .ok .transformed (decrypt key raw) (opcodeOf (decrypt key raw)) (valueOf (decrypt key raw)) := by
  simp [decodeReport, hraw, hcand, extractFields]

/-- A report that fails both checks is answered with the error (R87). -/
theorem decodeReport_of_checks_fail {key raw : Report} (hraw : checksumOk raw = false)
    (hcand : checksumOk (decrypt key raw) = false) : decodeReport key raw = .err raw (decrypt key raw) := by
  simp [decodeReport, hraw, hcand]

/-- The value field is byte 1 before byte 2 (R39, R55). -/
theorem valueOf_eq_append (d : Report) : valueOf d = d.get 1 ++ d.get 2 := by
  apply BitVec.eq_of_getLsbD_eq
  intro j hj
  rw [valueOf, BitVec.getLsbD_append]
  by_cases hlow : j < 8
  · simp [hlow, hj]
  · have hout : (d.get 2).getLsbD j = false := BitVec.getLsbD_of_ge _ _ (by omega)
    simp [hlow, hj, hout]

/-- The value field on integers: 256 times byte 1 plus byte 2 (R88). -/
theorem valueOf_eq_ofNat (d : Report) :
    valueOf d = BitVec.ofNat 16 ((d.get 1).toNat * 256 + (d.get 2).toNat) := by
  rw [valueOf_eq_append, ← toNat_append_byte, BitVec.ofNat_toNat, BitVec.setWidth_eq]

/-- Settles O15: one lemma for each answer of the decoder, the value by `valueOf_eq_ofNat`. -/
theorem decoderTriesClearThenTransformThenError : Obligations.DecoderTriesClearThenTransformThenError := by
  intro raw
  refine ⟨fun hraw => ?clear, ?transformed, decodeReport_of_checks_fail⟩
  case clear =>
    rw [decodeReport_of_checksumOk hraw, valueOf_eq_ofNat]
    rfl
  case transformed =>
    rintro _ rfl hraw hcand
    rw [decodeReport_of_candidate_checksumOk hraw hcand, valueOf_eq_ofNat]
    rfl

/-- Settles O16: the clear check alone decides, whatever the candidate; the example is evaluated. -/
theorem clearPathWinsWhenBothPass : Obligations.ClearPathWinsWhenBothPass := by
  have hexample : checksumOk ⟨0xA2, 0xE2, 0x6D, 0xF1, 0x0D, 0x1B, 0x15, 0xEA⟩ = true := by decide
  exact ⟨fun raw hraw _ => decodeReport_of_checksumOk hraw, hexample, by decide, by decide,
    decodeReport_of_checksumOk hexample⟩

/-! ### How many reports pass the check -/

/-- The validator fixes the checksum field as the byte sum of the first three bytes, and the terminator field (R78). -/
theorem checksumOk_iff_fields (d : Report) :
    checksumOk d = true ↔ checksumOf d = d.get 0 + d.get 1 + d.get 2 ∧ terminatorOf d = Config.term := by
  have hsum : (d.get 0 + d.get 1 + d.get 2).toNat = sumOf d % 256 := by
    rw [BitVec.toNat_add, BitVec.toNat_add, Nat.mod_add_mod, sumOf]
  rw [checksumOk_eq_true, and_comm, ← hsum, BitVec.toNat_inj, eq_comm]

/-- Settles O35: the one pair is the byte sum of the first three bytes and the terminator marker. -/
theorem clearCheckPassesOneInSixtyFiveThousand : Obligations.ClearCheckPassesOneInSixtyFiveThousand := by
  intro b0 b1 b2 b5 b6 b7
  refine (existsUnique_congr fun p => ?_).mpr (existsUnique_eq (a' := (b0 + b1 + b2, Config.term)))
  rw [checksumOk_iff_fields, Prod.ext_iff]
  exact Iff.rfl

/-! ### What the state before does not reach -/

/-- The seven registers of the decoder's answer after a report edge are the same from every state: the sample, which is
no part of the answer, is all that a report edge reads the state for (R92). -/
theorem reportEdge_decoded_same (s s' : State) (raw : Report) :
    (s.reportEdge raw).out.ov = (s'.reportEdge raw).out.ov ∧
    (s.reportEdge raw).out.oe = (s'.reportEdge raw).out.oe ∧
    (s.reportEdge raw).out.op = (s'.reportEdge raw).out.op ∧
    (s.reportEdge raw).out.oop = (s'.reportEdge raw).out.oop ∧
    (s.reportEdge raw).out.oval = (s'.reportEdge raw).out.oval ∧
    (s.reportEdge raw).out.oraw = (s'.reportEdge raw).out.oraw ∧
    (s.reportEdge raw).out.odec = (s'.reportEdge raw).out.odec := by
  cases hdec : decodeReport Config.key raw with
  | ok path dec op v => simp [reportEdge_of_ok _ hdec, successOutputs]
  | err raw' att => simp [reportEdge_of_err _ hdec]

/-- Settles O43: every report transaction is the edge of its raw report. -/
theorem decodedResultIsTheReportsOwn : Obligations.DecodedResultIsTheReportsOwn := by
  intro i raw s s' hreport
  exact ⟨_, _, exec_of_report hreport s, exec_of_report hreport s', reportEdge_decoded_same s s' raw⟩

end Sys2Proof.Machine
end

section
/-! Proofs about the report demultiplexer (42_demux.md): one induction for what a run keeps and one for what two runs
share, the report edge of each class, the channels and their values, the diagnostic read, and the sample. -/

namespace Sys2Proof.Machine

/-! ### What a run keeps, and what two runs share -/

/-- A transaction that runs has one of the five effects. -/
theorem effect_of_exec {i : Instr} {s t : State} (h : exec i s = .next t) : Effect i s t := by
  obtain ⟨u, hu, -, heffect⟩ := exec_cases i s
  rw [h] at hu
  cases hu
  exact heffect

/-- The induction over a run: what the effect of every allowed line keeps of the table holds at the end, and what it
then says of the result of an accepted report holds of every result. -/
theorem runAll_invariant {allowed : Stimulus → Prop} {inv : Memory → Prop} {good : Result → Prop}
    (hline : ∀ x s t, allowed x → inv s.ct → Effect (decode x) s t →
      inv t.ct ∧ (acceptsReport x = true → good t.result))
    (xs : List Stimulus) {s : State} (hallowed : ∀ x ∈ xs, allowed x) (hinv : inv s.ct) :
    (∀ r ∈ (runAll xs s).1, good r) ∧ inv (runAll xs s).2.ct := by
  induction xs generalizing s with
  | nil => simpa using hinv
  | cons x xs ih =>
    obtain ⟨hx, hxs⟩ := List.forall_mem_cons.mp hallowed
    obtain ⟨t, ht, -, heffect⟩ := exec_cases (decode x) (s.withLines xs)
    obtain ⟨hnext, hresult⟩ := hline x _ t hx hinv heffect
    obtain ⟨hresults, hend⟩ := ih hxs hnext
    rw [runAll_cons ht]
    refine ⟨?_, hend⟩
    split
    case isTrue haccepts => exact List.forall_mem_cons.mpr ⟨hresult haccepts, hresults⟩
    case isFalse => exact hresults

/-- The induction over two runs of the same lines: where every transaction keeps a relation between the two tables, and
from related tables a report loads the same registers, the runs give the same results and related tables. -/
theorem runAll_related {rel : Memory → Memory → Prop}
    (hexec : ∀ (i : Instr) (s s' : State), rel s.ct s'.ct →
      ∃ t t', exec i s = .next t ∧ exec i s' = .next t' ∧ rel t.ct t'.ct ∧ (i.report?.isSome = true → t.out = t'.out))
    (xs : List Stimulus) {s s' : State} (hrel : rel s.ct s'.ct) :
    (runAll xs s).1 = (runAll xs s').1 ∧ rel (runAll xs s).2.ct (runAll xs s').2.ct := by
  induction xs generalizing s s' with
  | nil => simpa using hrel
  | cons x xs ih =>
    obtain ⟨t, t', ht, ht', hnext, hout⟩ := hexec (decode x) (s.withLines xs) (s'.withLines xs) hrel
    obtain ⟨hresults, hend⟩ := ih hnext
    rw [runAll_cons ht, runAll_cons ht', hresults]
    refine ⟨?_, hend⟩
    split
    case isTrue haccepts => simp only [State.result, hout haccepts]
    case isFalse => rfl

/-! ### The block once both channels are known -/

/-- With both channels known, a transaction that is no reset leaves both known, and the result of a report carries a
sample exactly when it is no Checksum Error (R110). -/
theorem effect_of_bothKnown {i : Instr} {s t : State} (hreset : i.isReset = false) (hknown : bothKnown s.ct = true)
    (heffect : Effect i s t) :
    bothKnown t.ct = true ∧ (i.report?.isSome = true → t.result.sampleValid = !t.result.err) := by
  obtain ⟨hreset', -⟩ | ⟨-, hrep, -, hct, -⟩ | ⟨-, -, raw, path, dec, op, v, -, -, hct, hout⟩ |
    ⟨-, -, raw, att, -, -, hct, hout⟩ | ⟨-, hrep, -, hct, -⟩ := heffect
  case inl => simp [hreset] at hreset'
  case inr.inl => simp [hrep, hct, hknown]
  case inr.inr.inl =>
    have hknown' : bothKnown t.ct = true := hct ▸ bothKnown_store op v hknown
    exact ⟨hknown', fun _ => by simp [State.result, hout, successOutputs, emissionGate_isSome, hknown']⟩
  case inr.inr.inr.inl => exact ⟨hct ▸ hknown, fun _ => by simp [State.result, hout, errorOutputs]⟩
  case inr.inr.inr.inr => simp [hrep, hct, hknown]

/-- Settles O39, by induction over the run's lines: the invariant is that both channels are known. -/
theorem warmedUpBlockAlwaysEmits : Obligations.WarmedUpBlockAlwaysEmits := by
  intro xs s hknown hreset
  exact runAll_invariant (inv := fun ct => bothKnown ct = true) (good := fun r => r.sampleValid = !r.err)
    (fun _ _ _ hx hct heffect => effect_of_bothKnown hx hct heffect) xs hreset hknown

/-! ### The report transactions -/

section ReportEdge
variable {raw dec : Report} {path : DecodePath} {op : Byte} {v : Value} (s : State)
  (hdec : decodeReport Config.key raw = .ok path dec op v)
include hdec

/-- A report that decodes stores its value under its opcode and leaves every other entry (R93). -/
theorem reportEdge_read_of_ok (a : Byte) :
    (s.reportEdge raw).ct.read a = if a = op then ⟨true, v⟩ else s.ct.read a := by
  rw [reportEdge_of_ok s hdec, State.driveEdge_ct, State.acceptReport_ct, Memory.read_store]

/-- A report that decodes loads its result, and the sample of the updated table (R97, R101). -/
theorem reportEdge_out_of_ok :
    (s.reportEdge raw).out =
      { ov := true, oe := false, op := path.bit, oop := op, oval := v, oraw := pack raw, odec := pack dec
        sv := bothKnown (s.reportEdge raw).ct
        sco2 := if bothKnown (s.reportEdge raw).ct then ((s.reportEdge raw).ct.read 0x50).value else 0
        stemp := if bothKnown (s.reportEdge raw).ct then ((s.reportEdge raw).ct.read 0x42).value else 0 } := by
  rw [reportEdge_of_ok s hdec]
  exact successOutputs_emissionGate raw path dec op v _

/-- The gate on the table a report has updated: a channel is known that was known before or that the report is of. -/
theorem bothKnown_reportEdge_of_ok :
    bothKnown (s.reportEdge raw).ct =
      ((0x50 = op || (s.ct.read 0x50).valid) && (0x42 = op || (s.ct.read 0x42).valid)) := by
  have hvalid (a : Byte) : ((s.reportEdge raw).ct.read a).valid = (a = op || (s.ct.read a).valid) := by
    rw [reportEdge_read_of_ok s hdec]
    split <;> simp [*]
  rw [bothKnown, hvalid, hvalid]
  rfl

end ReportEdge

/-- Settles O8: CO2 is known after the store, so the gate is the temperature's. -/
theorem co2ReportStoresAndEmits : Obligations.Co2ReportStoresAndEmits := by
  intro raw dec path v s hdec
  refine ⟨_, exec_of_report rfl s, reportEdge_read_of_ok s hdec, ?_, reportEdge_pins s raw, reportEdge_lines s raw⟩
  rw [reportEdge_out_of_ok s hdec, bothKnown_reportEdge_of_ok s hdec]
  simp [reportEdge_read_of_ok s hdec]

/-- Settles O9: the temperature is known after the store, so the gate is CO2's. -/
theorem tempReportStoresAndEmits : Obligations.TempReportStoresAndEmits := by
  intro raw dec path v s hdec
  refine ⟨_, exec_of_report rfl s, reportEdge_read_of_ok s hdec, ?_, reportEdge_pins s raw, reportEdge_lines s raw⟩
  rw [reportEdge_out_of_ok s hdec, bothKnown_reportEdge_of_ok s hdec]
  simp [reportEdge_read_of_ok s hdec]

/-- Settles O10: the store is to neither known channel, so the gate reads the table as it was. -/
theorem unknownReportStoresAndEmitsStoredPair : Obligations.UnknownReportStoresAndEmitsStoredPair := by
  intro raw dec path op v s hco2 htemp hdec
  refine ⟨_, exec_of_report rfl s, reportEdge_read_of_ok s hdec, ?_, reportEdge_pins s raw, reportEdge_lines s raw⟩
  rw [reportEdge_out_of_ok s hdec, bothKnown_reportEdge_of_ok s hdec]
  simp only [reportEdge_read_of_ok s hdec, hco2.symm, htemp.symm, decide_false, Bool.false_or, if_false]

/-- Settles O12: the report edge for each of the decoder's two answers. -/
theorem reportTransactionLoadsResult : Obligations.ReportTransactionLoadsResult := by
  intro i raw s hrep
  refine ⟨_, exec_of_report hrep s, reportEdge_pins s raw, reportEdge_lines s raw, ?_⟩
  cases hdec : decodeReport Config.key raw with
  | ok path dec op v => exact ⟨reportEdge_read_of_ok s hdec, reportEdge_out_of_ok s hdec⟩
  | err raw' att =>
    obtain ⟨rfl, -⟩ := decodeReport_err hdec
    simp [reportEdge_of_err s hdec, errorOutputs]

/-- A report edge right after one of the same report leaves table and registers as they are (R108). -/
theorem reportEdge_reportEdge_block (s : State) (raw : Report) :
    ((s.reportEdge raw).reportEdge raw).block = (s.reportEdge raw).block := by
  cases hdec : decodeReport Config.key raw with
  | ok path dec op v => simp [State.block, reportEdge_of_ok _ hdec, Memory.write_write_same]
  | err raw' att => simp [State.block, reportEdge_of_err _ hdec]

/-- With both channels known, a report that decodes emits (R110). -/
theorem reportEdge_sv_of_bothKnown {raw dec : Report} {path : DecodePath} {op : Byte} {v : Value} {s : State}
    (hdec : decodeReport Config.key raw = .ok path dec op v) (hknown : bothKnown s.ct = true) :
    (s.reportEdge raw).out.sv = true := by
  rw [reportEdge_out_of_ok s hdec, reportEdge_of_ok s hdec]
  exact bothKnown_store op v hknown

/-- Settles O44: the entry, the decoder's registers and the gate of a report edge from any state, and the second edge
in a row. -/
theorem repeatedReportRepeatsItsEffect : Obligations.RepeatedReportRepeatsItsEffect := by
  intro i raw s s' hrep
  refine ⟨_, _, _, exec_of_report hrep s, exec_of_report hrep s', exec_of_report hrep _, ?entry, ?outputs, ?_⟩
  case entry =>
    intro path dec op v hdec
    refine ⟨?_, ?_, fun hs hs' => ⟨reportEdge_sv_of_bothKnown hdec hs, reportEdge_sv_of_bothKnown hdec hs'⟩⟩
    · rw [reportEdge_read_of_ok s hdec, if_pos rfl]
    · rw [reportEdge_read_of_ok s' hdec, if_pos rfl]
  case outputs => simpa only [Prod.mk.injEq] using reportEdge_decoded_same s s' raw
  exact Prod.ext_iff.mp (reportEdge_reportEdge_block s raw)

/-! ### The diagnostic read -/

/-- The diagnostic read shows the entry of the table (R103). -/
@[simp] theorem diagRead_eq_read (s : State) (a : Byte) : s.diagRead a = s.ct.read a := rfl

/-- Settles O4: the read is a function of table and address, and around a report edge the table is the one before it
and the one it leaves. -/
theorem diagReadShowsEntryWithoutEdge : Obligations.DiagReadShowsEntryWithoutEdge := by
  refine ⟨fun a s => ⟨_, rfl, rfl, rfl, rfl, rfl, rfl, rfl⟩, fun s => ⟨rfl, rfl⟩, ?_⟩
  intro i raw s t a hrep hexec
  rw [exec_of_report hrep] at hexec
  cases hexec
  refine ⟨diagRead_eq_read s a, ?_⟩
  rw [diagRead_eq_read]
  cases hdec : decodeReport Config.key raw with
  | ok path dec op v => exact reportEdge_read_of_ok s hdec a
  | err raw' att => rw [reportEdge_of_err s hdec, State.driveEdge_ct, State.takeChecksumError_ct]

/-! ### Idle edges -/

/-- Two runs from the same table give the same results and the same table at the end. -/
theorem runAll_of_same_table (xs : List Stimulus) {s s' : State} (h : s.ct = s'.ct) :
    (runAll xs s).1 = (runAll xs s').1 ∧ (runAll xs s).2.ct = (runAll xs s').2.ct :=
  runAll_related (fun i _ _ => exec_same_table i) xs h

/-- Settles O3: an idle edge leaves the table, and a run's results and final table depend on the table alone. -/
theorem idleEdgeClearsPulsesOnly : Obligations.IdleEdgeClearsPulsesOnly := by
  intro w s
  exact ⟨_, rfl, rfl, rfl, rfl, rfl, fun xs => runAll_of_same_table xs rfl⟩

/-- Idle edges before a run add no result and change none (R102). -/
theorem runAll_idle_append (levels : List PortWord) (xs : List Stimulus) (s : State) :
    (runAll (levels.map (Stimulus.edge 0b00) ++ xs) s).1 = (runAll xs s).1 := by
  induction levels generalizing s with
  | nil => rfl
  | cons w levels ih =>
    rw [List.map_cons, List.cons_append, runAll_cons (x := .edge 0b00 w) rfl]
    exact (ih _).trans (And.left (runAll_of_same_table xs rfl))

/-! ### The channels -/

/-- Settles O37: the entry after a step is, by the two ways the table is written, the entry before it, the value of a
report of its opcode, or unseen. -/
theorem channelStateMachine : Obligations.ChannelStateMachine := by
  intro s t hstep
  unfold isResetLine State.known
  obtain ⟨hreset, hrep, -, hct, -⟩ | ⟨hreset, hrep, -, hct, -⟩ |
    ⟨hreset, -, raw, path, dec, op, v, hrep, hdec, hct, -⟩ | ⟨hreset, -, raw, att, hrep, hdec, hct, -⟩ |
    ⟨hreset, hrep, -, hct, -⟩ := step_effect hstep
  case inl => simp [hreset, hrep, hct, Entry.unseen]
  case inr.inl => simp +contextual [hreset, hrep, hct]
  case inr.inr.inl =>
    have hread (a : Byte) : (t.ct.read a).valid = (a = op || (s.ct.read a).valid) := by
      rw [hct, Memory.read_store]
      split <;> simp [*]
    refine ⟨fun a hs ht => ?_, fun a hs ht => ?_, fun raw' path' dec' a v' hrep' hdec' => ?_, fun h => ?_⟩
    · obtain rfl : a = op := by simpa [hread, hs] using ht
      exact ⟨raw, path, dec, v, hrep, hdec⟩
    · simp [hread, hs] at ht
    · cases hrep.symm.trans hrep'
      cases hdec.symm.trans hdec'
      simp [hread]
    · simp [hreset] at h
  case inr.inr.inr.inl =>
    refine ⟨fun a hs ht => ?_, fun a hs ht => ?_, fun raw' path' dec' a v' hrep' hdec' => ?_, fun h => ?_⟩
    · simp [hct, hs] at ht
    · simp [hct, hs] at ht
    · cases hrep.symm.trans hrep'
      cases hdec.symm.trans hdec'
    · simp [hreset] at h
  case inr.inr.inr.inr => simp +contextual [hreset, hrep, hct]

/-- A transaction that is no reset, and no report that decodes to opcode `a`, leaves the entry of `a` (R98). -/
theorem effect_read_of_other {i : Instr} {s t : State} {a : Byte} (hreset : i.isReset = false)
    (hother : ∀ raw path dec v, i.report? = some raw → decodeReport Config.key raw ≠ .ok path dec a v)
    (heffect : Effect i s t) : t.ct.read a = s.ct.read a := by
  obtain ⟨hreset', -⟩ | ⟨-, -, -, hct, -⟩ | ⟨-, -, raw, path, dec, op, v, hrep, hdec, hct, -⟩ |
    ⟨-, -, raw, att, -, -, hct, -⟩ | ⟨-, -, -, hct, -⟩ := heffect
  case inl => simp [hreset] at hreset'
  case inr.inr.inl =>
    have hne : a ≠ op := by
      rintro rfl
      exact hother raw path dec v hrep hdec
    rw [hct, Memory.read_store, if_neg hne]
  all_goals rw [hct]

/-- Settles O38, by induction over the run's lines: the invariant is the entry itself. -/
theorem valuesPersist : Obligations.ValuesPersist := by
  intro xs s a hlines
  exact (runAll_invariant (inv := fun ct => ct.read a = s.ct.read a) (good := fun _ => True)
    (fun _ _ _ ⟨hreset, hother⟩ hct heffect =>
      ⟨(effect_read_of_other hreset hother heffect).trans hct, fun _ => trivial⟩)
    xs hlines rfl).2

/-! ### The unknown opcodes -/

/-- Two tables that the emission gate cannot tell apart: they agree on the two known channels (R109). -/
def SameKnownChannels (m m' : Memory) : Prop :=
  m.read 0x50 = m'.read 0x50 ∧ m.read 0x42 = m'.read 0x42

/-- The gate reads the two known channels alone (R97). -/
theorem emissionGate_of_sameKnownChannels {m m' : Memory} (h : SameKnownChannels m m') :
    emissionGate m = emissionGate m' := by
  obtain ⟨hco2, htemp⟩ := h
  unfold emissionGate bothKnown Config.opCo2 Config.opTemp
  rw [hco2, htemp]

theorem sameKnownChannels_store {m m' : Memory} (op : Byte) (v : Value) (h : SameKnownChannels m m') :
    SameKnownChannels (m.write op ⟨true, v⟩) (m'.write op ⟨true, v⟩) := by
  obtain ⟨hco2, htemp⟩ := h
  simp only [SameKnownChannels, Memory.read_store, hco2, htemp, and_self]

/-- A transaction that presents no report empties the table or leaves it (R22). -/
theorem table_of_exec_of_no_report {i : Instr} {s t : State} (hrep : i.report? = none) (h : exec i s = .next t) :
    t.ct = if i.isReset then [] else s.ct := by
  obtain ⟨hreset, -, -, hct, -⟩ | ⟨hreset, -, -, hct, -⟩ | ⟨-, -, raw, path, dec, op, v, hrep', -⟩ |
    ⟨-, -, raw, att, hrep', -⟩ | ⟨hreset, -, -, hct, -⟩ := effect_of_exec h
  case inr.inr.inl => simp [hrep] at hrep'
  case inr.inr.inr.inl => simp [hrep] at hrep'
  all_goals simp [hreset, hct]

/-- Every transaction keeps the agreement on the known channels, and a report then loads the same registers. -/
theorem exec_sameKnownChannels (i : Instr) {s s' : State} (h : SameKnownChannels s.ct s'.ct) :
    ∃ t t', exec i s = .next t ∧ exec i s' = .next t' ∧ SameKnownChannels t.ct t'.ct ∧
      (i.report?.isSome = true → t.out = t'.out) := by
  cases hrep : i.report? with
  | some raw =>
    refine ⟨_, _, exec_of_report hrep s, exec_of_report hrep s', ?_⟩
    cases hdec : decodeReport Config.key raw with
    | ok path dec op v =>
      have hstore := sameKnownChannels_store op v h
      simpa [reportEdge_of_ok _ hdec, emissionGate_of_sameKnownChannels hstore] using hstore
    | err raw' att => simpa [reportEdge_of_err _ hdec] using h
  | none =>
    obtain ⟨t, ht, -, -⟩ := exec_cases i s
    obtain ⟨t', ht', -, -⟩ := exec_cases i s'
    refine ⟨t, t', ht, ht', ?_, fun hsome => absurd hsome (by simp)⟩
    rw [table_of_exec_of_no_report hrep ht, table_of_exec_of_no_report hrep ht']
    split
    case isTrue => exact ⟨rfl, rfl⟩
    case isFalse => exact h

/-- Settles O41: the relation that two runs of the same lines share is the agreement on the two known channels. -/
theorem unknownEntriesNeverReachResults : Obligations.UnknownEntriesNeverReachResults := by
  intro xs s s' hco2 htemp
  exact (runAll_related (fun i _ _ => exec_sameKnownChannels i) xs ⟨hco2, htemp⟩).1

/-! ### The sample -/

/-- Settles O46: of the effects of a clocked step only the successful report leaves SV at 1. -/
theorem sampleOnlyWithASuccessfulResult : Obligations.SampleOnlyWithASuccessfulResult := by
  intro s t hstep hclk hsample
  have hsv : t.out.sv = true := by
    by_contra hsv
    simp [State.hostSample, hsv] at hsample
  obtain ⟨-, -, -, -, hout⟩ | ⟨-, -, -, -, hout⟩ | ⟨-, -, raw, path, dec, op, v, hrep, -, -, hout⟩ |
    ⟨-, -, raw, att, -, -, -, hout⟩ | ⟨-, -, hclk', -⟩ := step_effect hstep
  case inl => simp [hout, Outputs.reset] at hsv
  case inr.inl => simp [hout, idleOutputs] at hsv
  case inr.inr.inl =>
    refine ⟨hsv, ?_, ?_, ?_, if_pos hsv⟩
    · simp [State.ports, hout, successOutputs]
    · simp [State.ports, hout, successOutputs]
    · simp [acceptsReport, hrep]
  case inr.inr.inr.inl => simp [hout, errorOutputs] at hsv
  case inr.inr.inr.inr => simp [hclk] at hclk'

/-- The run of a report line and the rest, for the report edge (R101). -/
theorem runAll_reportStimulus_cons (w : PortWord) (xs : List Stimulus) (s : State) :
    runAll (reportStimulus w :: xs) s =
      (((s.withLines xs).reportEdge (unpack w)).result :: (runAll xs ((s.withLines xs).reportEdge (unpack w))).1,
        (runAll xs ((s.withLines xs).reportEdge (unpack w))).2) := by
  have hrep : (decode (reportStimulus w)).report? = some (unpack w) := by simp [reportStimulus, decode_edge_report]
  rw [runAll_cons (exec_of_report hrep _), acceptsReport, hrep]
  rfl

/-- Settles O49: the idle edges drop out of the results, and the second report meets the table the first has left. -/
theorem co2ThenTempEmitsThatPair : Obligations.Co2ThenTempEmitsThatPair := by
  intro w w' path path' dec dec' v v' levels s hdec hdec'
  rw [runAll_reportStimulus_cons, runAll_idle_append, runAll_reportStimulus_cons]
  refine ⟨_, _, rfl, ?_⟩
  simp [State.result, reportEdge_out_of_ok _ hdec, reportEdge_out_of_ok _ hdec', bothKnown_reportEdge_of_ok _ hdec',
    reportEdge_read_of_ok _ hdec, reportEdge_read_of_ok _ hdec']

end Sys2Proof.Machine
end

section
/-! Proofs about the host's temperature (42_demux.md section 3): rounding to nearest with ties to even on naturals, the
fields of a binary64 pattern, and the one rounding of `temp_c`. -/

namespace Sys2Proof.Machine

/-! ### Rounding to nearest, ties to even -/

/-- The rounded quotient is within half a unit of its last place, and even half way between two (R104). -/
theorem roundHalfEven_nearest (n k : Nat) :
    2 * ((roundHalfEven n k * 2 ^ k : Nat) - (n : Nat) : Int).natAbs ≤ 2 ^ k ∧
    (2 * ((roundHalfEven n k * 2 ^ k : Nat) - (n : Nat) : Int).natAbs = 2 ^ k → roundHalfEven n k % 2 = 0) := by
  have hdiv := Nat.div_add_mod' n (2 ^ k)
  have hmod := Nat.mod_lt n (Nat.two_pow_pos k)
  have hsucc : (n / 2 ^ k + 1) * 2 ^ k = n / 2 ^ k * 2 ^ k + 2 ^ k := Nat.succ_mul _ _
  unfold roundHalfEven
  dsimp only
  split
  case isTrue hup => omega
  case isFalse hdown => omega

/-- The rounded quotient is the quotient or the next number. -/
theorem roundHalfEven_bounds (n k : Nat) : n / 2 ^ k ≤ roundHalfEven n k ∧ roundHalfEven n k ≤ n / 2 ^ k + 1 := by
  unfold roundHalfEven
  dsimp only
  split <;> omega

/-! ### The pattern of a significand and an exponent -/

/-- The exponent and significand of a normal pattern are those it is put together from, the sign bit being that of
`n` (R104): the pattern is exactly `n` units where the magnitudes agree. -/
theorem binary64Is_ofNat {e sig : Nat} {n : Int} (he : 0 < e) (he' : e < 2047) (hsig : 2 ^ 52 ≤ sig)
    (hsig' : sig < 2 ^ 53) (hmag : sig * 2 ^ (e - 1031) = n.natAbs * 2 ^ (1031 - e)) :
    binary64Is (BitVec.ofNat 64 ((if n < 0 then 2 ^ 63 else 0) + e * 2 ^ 52 + (sig - 2 ^ 52))) n = true := by
  set sign := if n < 0 then 2 ^ 63 else 0 with hsign
  have hnat : (BitVec.ofNat 64 (sign + e * 2 ^ 52 + (sig - 2 ^ 52))).toNat = sign + e * 2 ^ 52 + (sig - 2 ^ 52) := by
    rw [BitVec.toNat_ofNat]
    split at hsign <;> omega
  have hexp : binary64Exponent (BitVec.ofNat 64 (sign + e * 2 ^ 52 + (sig - 2 ^ 52))) = e := by
    rw [binary64Exponent, hnat]
    split at hsign <;> omega
  have hsignificand : binary64Significand (BitVec.ofNat 64 (sign + e * 2 ^ 52 + (sig - 2 ^ 52))) = sig := by
    rw [binary64Significand, hnat]
    split at hsign <;> omega
  have hneg : 2 ^ 63 ≤ sign + e * 2 ^ 52 + (sig - 2 ^ 52) ↔ n < 0 := by
    split at hsign <;> omega
  simp only [binary64Is, hexp, hsignificand, hnat, hneg, hmag, he, he', and_self, decide_true, BEq.rfl, Bool.and_self]

/-- Where 53 bits hold a difference, `fl64` is exactly it (R105). -/
theorem binary64Is_fl64_of_lt {d : Int} (hd : d ≠ 0) (hlt : d.natAbs < 2 ^ 53) : binary64Is (fl64 d) d = true := by
  have hd' : d.natAbs ≠ 0 := Int.natAbs_ne_zero.mpr hd
  have htop : d.natAbs.log2 ≤ 52 := Nat.le_of_lt_succ ((Nat.log2_lt hd').mpr hlt)
  have hpow (m : Nat) : 2 ^ (d.natAbs.log2 + m) * 2 ^ (52 - d.natAbs.log2) = 2 ^ (52 + m) := by
    rw [← pow_add]
    congr 1
    omega
  rw [fl64, if_neg hd]
  dsimp only
  rw [significand, if_pos htop]
  refine binary64Is_ofNat (by omega) (by omega) ?lower ?upper ?magnitude
  case lower =>
    rw [← hpow 0]
    exact Nat.mul_le_mul_right _ (Nat.log2_self_le hd')
  case upper =>
    rw [← hpow 1]
    exact Nat.mul_lt_mul_of_pos_right Nat.lt_log2_self (Nat.two_pow_pos _)
  case magnitude =>
    rw [show d.natAbs.log2 + 979 - 1031 = 0 by omega,
      show 1031 - (d.natAbs.log2 + 979) = 52 - d.natAbs.log2 by omega, pow_zero, mul_one]

/-- A difference of `k + 53` bits rounded to 53, in the units it is counted in: `binary64Is_fl64_of_log2` ties it to
`fl64`. -/
def roundedUnits (d : Int) (k : Nat) : Int :=
  if d < 0 then -(roundHalfEven d.natAbs k * 2 ^ k : Nat) else (roundHalfEven d.natAbs k * 2 ^ k : Nat)

theorem natAbs_roundedUnits (d : Int) (k : Nat) : (roundedUnits d k).natAbs = roundHalfEven d.natAbs k * 2 ^ k := by
  unfold roundedUnits
  split <;> omega

/-- Rounding moves the difference as far as it moves its magnitude. -/
theorem natAbs_roundedUnits_sub (d : Int) (k : Nat) :
    (roundedUnits d k - d).natAbs = ((roundHalfEven d.natAbs k * 2 ^ k : Nat) - (d.natAbs : Nat) : Int).natAbs := by
  unfold roundedUnits
  split <;> omega

/-- The rounded magnitude of a difference of `k + 53` bits has 53 bits, or is 2^53. -/
theorem roundHalfEven_of_log2 {n k : Nat} (hn : n ≠ 0) (hk : n.log2 = k + 52) :
    2 ^ 52 ≤ roundHalfEven n k ∧ roundHalfEven n k ≤ 2 ^ 53 := by
  obtain ⟨hlow, hhigh⟩ := roundHalfEven_bounds n k
  have hge : 2 ^ 52 ≤ n / 2 ^ k := by
    rw [Nat.le_div_iff_mul_le (Nat.two_pow_pos k), ← pow_add, add_comm, ← hk]
    exact Nat.log2_self_le hn
  have hlt : n / 2 ^ k < 2 ^ 53 := by
    rw [Nat.div_lt_iff_lt_mul (Nat.two_pow_pos k), ← pow_add, show 53 + k = n.log2 + 1 by omega]
    exact Nat.lt_log2_self
  exact ⟨hlow.trans' hge, hhigh.trans hlt⟩

/-- Where a difference has `k + 53` bits, `fl64` is exactly the rounded one. A magnitude that rounds up to 2^53 stands
as 2^52 at the next exponent (R104). -/
theorem binary64Is_fl64_of_log2 {d : Int} {k : Nat} (hd : d ≠ 0) (hk : d.natAbs.log2 = k + 52) (hpos : 0 < k)
    (hsmall : k < 1000) : binary64Is (fl64 d) (roundedUnits d k) = true := by
  obtain ⟨hsig, hsig'⟩ := roundHalfEven_of_log2 (Int.natAbs_ne_zero.mpr hd) hk
  have hneg : d < 0 ↔ roundedUnits d k < 0 := by
    have hmag : 0 < roundHalfEven d.natAbs k * 2 ^ k := Nat.mul_pos (by omega) (Nat.two_pow_pos k)
    unfold roundedUnits
    split <;> omega
  rw [fl64, if_neg hd]
  dsimp only
  rw [hk, significand, if_neg (show ¬k + 52 ≤ 52 by omega), Nat.add_sub_cancel]
  simp only [hneg]
  obtain hlt | hcarry := hsig'.lt_or_eq
  case inl =>
    refine binary64Is_ofNat (by omega) (by omega) hsig hlt ?_
    rw [natAbs_roundedUnits, show k + 52 + 979 - 1031 = k by omega, show 1031 - (k + 52 + 979) = 0 by omega,
      pow_zero, mul_one]
  case inr =>
    have hnext (sign : Nat) : sign + (k + 52 + 979) * 2 ^ 52 + (roundHalfEven d.natAbs k - 2 ^ 52) =
        sign + (k + 1 + 52 + 979) * 2 ^ 52 + (2 ^ 52 - 2 ^ 52) := by omega
    rw [hnext]
    refine binary64Is_ofNat (by omega) (by omega) le_rfl (by norm_num) ?_
    rw [natAbs_roundedUnits, hcarry, show k + 1 + 52 + 979 - 1031 = k + 1 by omega,
      show 1031 - (k + 1 + 52 + 979) = 0 by omega, pow_zero, mul_one]
    ring

/-! ### The difference -/

/-- No raw temperature is 273.15 exactly, and no difference has more than 57 bits. -/
theorem tempExact_range (v : Value) : tempExact v ≠ 0 ∧ (tempExact v).natAbs < 2 ^ 57 := by
  have hv := v.isLt
  unfold tempExact kelvin celsiusOffset
  omega

/-- Settles O50: below 2^53 units the pattern is exact; else it is the difference rounded to the nearest, ties to even,
at its last place. -/
theorem hostTemperatureIsCorrectlyRounded : Obligations.HostTemperatureIsCorrectlyRounded := by
  rintro v k rfl
  obtain ⟨hne, hrange⟩ := tempExact_range v
  have hne' : (tempExact v).natAbs ≠ 0 := Int.natAbs_ne_zero.mpr hne
  refine ⟨binary64Is_fl64_of_lt hne, fun hwide => ?_⟩
  have hge : 53 ≤ (tempExact v).natAbs.log2 := (Nat.le_log2 hne').mpr hwide
  have hlt : (tempExact v).natAbs.log2 < 57 := (Nat.log2_lt hne').mpr hrange
  set k := (tempExact v).natAbs.log2 - 52 with hk
  obtain ⟨hnear, htie⟩ := roundHalfEven_nearest (tempExact v).natAbs k
  refine ⟨roundedUnits (tempExact v) k, binary64Is_fl64_of_log2 hne (by omega) (by omega) (by omega), ?_⟩
  rw [natAbs_roundedUnits, natAbs_roundedUnits_sub, Nat.mul_div_cancel _ (Nat.two_pow_pos k)]
  exact ⟨Nat.dvd_mul_left _ _, hnear, htie⟩

end Sys2Proof.Machine
end

section
/-! Proofs about the Checksum Error (60_exceptions.md): the registers it loads, the transactions and the lines that
raise it, and the stream of results around it. -/

namespace Sys2Proof.Machine

/-! ### The registers and the condition of the error -/

/-- A report edge whose report fails both checks leaves the table and loads the error outputs (R113). -/
theorem reportEdge_of_checks_fail (s : State) {raw : Report} (hraw : checksumOk raw = false)
    (hcand : checksumOk (decrypt Config.key raw) = false) :
    (s.reportEdge raw).ct = s.ct ∧ (s.reportEdge raw).out = errorOutputs raw (decrypt Config.key raw) := by
  rw [reportEdge_of_err s (decodeReport_of_checks_fail hraw hcand)]
  exact ⟨rfl, rfl⟩

/-- Settles O11: the transaction is the report edge, which leaves the table and loads the error outputs. -/
theorem checksumErrorLoadsErrorOutputs : Obligations.ChecksumErrorLoadsErrorOutputs := by
  intro raw s hraw hcand
  obtain ⟨hct, hout⟩ := reportEdge_of_checks_fail s hraw hcand
  exact ⟨_, exec_of_report rfl s, hct, hout, reportEdge_pins s raw, reportEdge_lines s raw⟩

/-- Every report edge loads OV with 1 (R101, R113). -/
theorem reportEdge_ov (s : State) (raw : Report) : (s.reportEdge raw).out.ov = true := by
  cases hdec : decodeReport Config.key raw with
  | ok path dec op v => simp [reportEdge_of_ok s hdec, successOutputs]
  | err raw' att => simp [reportEdge_of_err s hdec, errorOutputs]

/-- A report edge loads OE with 1 exactly where the report is of class CHKERR (R59, R113). -/
theorem reportEdge_oe (s : State) (raw : Report) : (s.reportEdge raw).out.oe = true ↔ classify raw = .chkerr := by
  cases hdec : decodeReport Config.key raw with
  | ok path dec op v => simp [reportEdge_of_ok s hdec, successOutputs, classify_of_ok hdec, classOfOpcode_ne_chkerr]
  | err raw' att => simp [reportEdge_of_err s hdec, errorOutputs, classify_of_err hdec]

/-- Settles O13: on a report OE tells the class CHKERR, which is the failure of both checks; without a report an edge
leaves OV at 0. -/
theorem checksumErrorExactlyWhenBothChecksFail : Obligations.ChecksumErrorExactlyWhenBothChecksFail := by
  intro i s
  obtain ⟨t, hexec, hov, -⟩ := pulsesLastOneCycle i s
  refine ⟨t, hexec, fun raw hrep => ?report, fun hclk hrep => ?noReport⟩
  case report =>
    cases (exec_of_report hrep s).symm.trans hexec
    rw [reportEdge_ov, reportEdge_oe, classify_eq_chkerr, eq_self, true_and]
  case noReport => rw [hov hclk, hrep, Option.isSome_none]

/-! ### The lines that raise the error -/

/-- A report cycle decodes to RPT_CHKERR exactly where its report is of that class (R59). -/
theorem decodeReportLine_isChkerr (raw : Report) :
    (decodeReportLine raw).isChkerr = true ↔ classify raw = .chkerr := by
  unfold decodeReportLine
  split <;> simp [Instr.isChkerr, *]

/-- A line is a report cycle, or it presents no report and raises no error (R51, R112). -/
theorem decode_report_cases (x : Stimulus) :
    (∃ raw, decode x = decodeReportLine raw) ∨ ((decode x).report? = none ∧ (decode x).isChkerr = false) := by
  cases x with
  | edge ctrl w =>
    obtain ⟨rst, valid, rfl⟩ : ∃ rst valid, ctrl = ctrlWord rst valid := ⟨_, _, (ctrlWord_bits ctrl).symm⟩
    cases rst with
    | true => exact .inr (by rw [decode_edge_rst]; exact ⟨rfl, rfl⟩)
    | false =>
      cases valid with
      | true => exact .inl ⟨unpack w, decode_edge_report w⟩
      | false => exact .inr (by rw [decode_edge_idle]; exact ⟨rfl, rfl⟩)
  | diagPort a => exact .inr ⟨rfl, rfl⟩
  | transformPort d => exact .inr ⟨rfl, rfl⟩
  | validatorPort d => exact .inr ⟨rfl, rfl⟩

/-- The error lines are the report cycles of class CHKERR. -/
theorem isErrorLine_iff (x : Stimulus) :
    isErrorLine x = true ↔ ∃ raw, (decode x).report? = some raw ∧ classify raw = .chkerr := by
  obtain ⟨raw, hdecode⟩ | ⟨hrep, herr⟩ := decode_report_cases x
  case inl => simp [isErrorLine, hdecode, decodeReportLine_isChkerr]
  case inr => simp [isErrorLine, hrep, herr]

/-- The result of an accepted report is a Checksum Error exactly where its line is an error line. -/
theorem result_err_of_acceptsReport {x : Stimulus} {s t : State} (haccepts : acceptsReport x = true)
    (hexec : exec (decode x) s = .next t) : t.result.err = isErrorLine x := by
  obtain ⟨raw, hrep⟩ := Option.isSome_iff_exists.mp haccepts
  cases (exec_of_report hrep s).symm.trans hexec
  rw [Bool.eq_iff_iff, isErrorLine_iff]
  simp [hrep, State.result, reportEdge_oe]

/-- An error line is accepted, and leaves the table as it was (R114). -/
theorem errorLine_keeps_table {x : Stimulus} {s t : State} (herr : isErrorLine x = true)
    (hexec : exec (decode x) s = .next t) : acceptsReport x = true ∧ t.ct = s.ct := by
  obtain ⟨raw, hrep, hclass⟩ := (isErrorLine_iff x).mp herr
  obtain ⟨hraw, hcand⟩ := (classify_eq_chkerr raw).mp hclass
  cases (exec_of_report hrep s).symm.trans hexec
  exact ⟨by simp [acceptsReport, hrep], (reportEdge_of_checks_fail s hraw hcand).1⟩

/-! ### The stream around the error -/

/-- A run without its error lines, from the same table: an error line adds an error to the results and leaves the table
to the lines after it; every other line is in both runs, meets the same table there, and adds the same result, which is
no error (R114). -/
theorem runAll_filter_errorLines (xs : List Stimulus) {s s' : State} (h : s.ct = s'.ct) :
    (runAll xs s).1.filter (fun r => !r.err) = (runAll (xs.filter fun x => !isErrorLine x) s').1 ∧
    (runAll xs s).2.ct = (runAll (xs.filter fun x => !isErrorLine x) s').2.ct := by
  induction xs generalizing s s' with
  | nil => exact ⟨rfl, h⟩
  | cons x xs ih =>
    cases herr : isErrorLine x with
    | true =>
      obtain ⟨t, ht, -, -⟩ := exec_cases (decode x) (s.withLines xs)
      obtain ⟨haccepts, hct⟩ := errorLine_keeps_table herr ht
      have hresult : t.result.err = true := (result_err_of_acceptsReport haccepts ht).trans herr
      rw [List.filter_cons_of_neg (by simp [herr]), runAll_cons ht, if_pos haccepts,
        List.filter_cons_of_neg (by simp [hresult])]
      exact ih (hct.trans h)
    | false =>
      obtain ⟨t, t', ht, ht', hct, hout⟩ := exec_same_table (decode x) (s := s.withLines xs)
        (s' := s'.withLines (xs.filter fun y => !isErrorLine y)) h
      obtain ⟨hresults, hend⟩ := ih hct
      rw [List.filter_cons_of_pos (by simp [herr]), runAll_cons ht, runAll_cons ht']
      refine ⟨?_, hend⟩
      split
      case isTrue haccepts =>
        have hresult : t.result.err = false := (result_err_of_acceptsReport haccepts ht).trans herr
        have hsame : t.result = t'.result := by simp only [State.result, hout haccepts]
        rw [List.filter_cons_of_pos (by simp [hresult]), hsame, hresults]
      case isFalse => exact hresults

/-- Settles O42: the two runs start from the same state, so from the same table. -/
theorem errorsDoNotDisturbTheStream : Obligations.ErrorsDoNotDisturbTheStream :=
  fun xs _ => runAll_filter_errorLines xs rfl

end Sys2Proof.Machine
end

section
/-! Proofs about reset and the freedom from hazards (70_reset_and_hazards.md): reset edges, runs that never stop, results
that do not depend on time, and the document's four testable properties. -/

namespace Sys2Proof.Machine

/-! ### Lines that present no report -/

/-- A reset edge presents no report (R118). -/
theorem report?_of_isReset {i : Instr} (h : i.isReset = true) : i.report? = none := by
  cases i <;> cases h
  rfl

/-- A reset edge leaves the block at its reset values, whatever it was (R128). -/
theorem blockAfter_of_isReset {i : Instr} (h : i.isReset = true) (b : Memory × Outputs) :
    blockAfter i b = ([], Outputs.reset) := by
  rw [blockAfter, report?_of_isReset h]
  exact if_pos h

/-- A line without a report adds no result: the run is that of the rest, from the block the line leaves. -/
theorem runAll_cons_of_no_report {x : Stimulus} (hrep : (decode x).report? = none) (xs : List Stimulus) (s : State) :
    ∃ t, t.block = blockAfter (decode x) s.block ∧ runAll (x :: xs) s = runAll xs t := by
  obtain ⟨t, ht, -, -⟩ := exec_cases (decode x) (s.withLines xs)
  refine ⟨t, (block_of_exec ht :), ?_⟩
  rw [runAll_cons ht, acceptsReport, hrep]
  rfl

/-- A line that is no report and no reset leaves the table as it was (R22), and adds no result. -/
theorem runAll_cons_of_no_report_of_no_reset {x : Stimulus} (hrep : (decode x).report? = none)
    (hreset : isResetLine x = false) (xs : List Stimulus) (s : State) :
    ∃ t, t.ct = s.ct ∧ runAll (x :: xs) s = runAll xs t := by
  obtain ⟨t, hblock, hrun⟩ := runAll_cons_of_no_report hrep xs s
  refine ⟨t, (congrArg Prod.fst hblock).trans ?_, hrun⟩
  rw [blockAfter, hrep]
  simp only [show (decode x).isReset = false from hreset, Bool.false_eq_true, if_false]
  split <;> rfl

/-- Where each line presents no report and leaves the block as it is, the run does so too, and gives no result. -/
theorem runAll_of_lines_keep_block (xs : List Stimulus) {s : State}
    (hkeep : ∀ x ∈ xs, (decode x).report? = none ∧ blockAfter (decode x) s.block = s.block) :
    (runAll xs s).1 = [] ∧ (runAll xs s).2.block = s.block := by
  induction xs generalizing s with
  | nil => exact ⟨rfl, rfl⟩
  | cons x xs ih =>
    obtain ⟨⟨hrep, hx⟩, hxs⟩ := List.forall_mem_cons.mp hkeep
    obtain ⟨t, hblock, hrun⟩ := runAll_cons_of_no_report hrep xs s
    rw [hx] at hblock
    rw [hrun, ← hblock]
    exact ih (hblock ▸ hxs)

/-! ### Reset edges -/

/-- Settles O1: the table is empty and the registers are those of `Outputs.reset`. -/
theorem resetEdgeClearsBlock : Obligations.ResetEdgeClearsBlock :=
  fun _ _ _ => ⟨_, rfl, fun _ => rfl, fun _ => rfl, rfl, rfl, rfl⟩

/-- A run whose first line is a reset edge is the run of the rest from the reset block (R129). -/
theorem runAll_cons_of_reset {x : Stimulus} (hreset : isResetLine x = true) (xs : List Stimulus) (s : State) :
    ∃ t, t.block = ([], Outputs.reset) ∧ runAll (x :: xs) s = runAll xs t := by
  obtain ⟨t, hblock, hrun⟩ := runAll_cons_of_no_report (report?_of_isReset hreset) xs s
  exact ⟨t, hblock.trans (blockAfter_of_isReset hreset _), hrun⟩

/-- Reset edges in a row, at least one, leave the reset block: the first edge leaves it, and the others keep it (R129). -/
theorem runAll_of_reset_lines {xs : List Stimulus} (hne : xs ≠ []) (hreset : ∀ x ∈ xs, isResetLine x = true)
    (s : State) :
    (runAll xs s).2.block = ([], Outputs.reset) ∧ (runAll xs s).1 = [] := by
  cases xs with
  | nil => exact absurd rfl hne
  | cons x xs =>
    obtain ⟨hx, hxs⟩ := List.forall_mem_cons.mp hreset
    obtain ⟨t, hblock, hrun⟩ := runAll_cons_of_reset hx xs s
    obtain ⟨hresults, hend⟩ := runAll_of_lines_keep_block xs (s := t) fun y hy =>
      ⟨report?_of_isReset (hxs y hy), (blockAfter_of_isReset (hxs y hy) _).trans hblock.symm⟩
    rw [hrun]
    exact ⟨hend.trans hblock, hresults⟩

/-- The control word `1x` makes a reset edge (R51). -/
theorem isResetLine_edge_rst (v : Bool) (w : PortWord) : isResetLine (.edge (ctrlWord true v) w) = true := by
  rw [isResetLine, decode_edge_rst]
  rfl

/-- Settles O2: every line of the list is a reset edge. -/
theorem resetEdgesInARowAreOne : Obligations.ResetEdgesInARowAreOne := fun _ s hne =>
  runAll_of_reset_lines (mt List.map_eq_nil_iff.mp hne)
    (List.forall_mem_map.mpr fun p _ => isResetLine_edge_rst p.1 p.2) s

/-! ### Every step runs -/

/-- A step runs from every state, and takes one line (R141, R116). -/
theorem step_takes_line (s : State) : ∃ t, step s = .next t ∧ t.lines = s.lines.tail := by
  obtain ⟨t, ht, hlines, -⟩ := exec_cases (decode s.nextLine) s.dropLine
  exact ⟨t, ht, hlines⟩

/-- Settles O25, by induction on the number of steps. -/
theorem everyRunTakesItsSteps : Obligations.EveryRunTakesItsSteps := by
  intro n
  induction n with
  | zero => exact fun s => ⟨s, rfl, rfl⟩
  | succ n ih =>
    intro s
    obtain ⟨t, ht, hlines⟩ := step_takes_line s
    obtain ⟨u, hu, hdrop⟩ := ih t
    refine ⟨u, ?_, by rw [hdrop, hlines, List.drop_tail]⟩
    have hstep : Sys2Proof.core.step s = .next t := ht
    simpa only [Host.Core.run, hstep] using hu

/-! ### Results and time -/

/-- A run and the run of its reports and resets alone, from the same table: the other lines add no result and leave the
table to the lines after them (R138). -/
theorem runAll_filter_countsForResults (xs : List Stimulus) {s s' : State} (h : s.ct = s'.ct) :
    (runAll xs s).1 = (runAll (xs.filter countsForResults) s').1 ∧
    (runAll xs s).2.ct = (runAll (xs.filter countsForResults) s').2.ct := by
  induction xs generalizing s s' with
  | nil => exact ⟨rfl, h⟩
  | cons x xs ih =>
    cases hcounts : countsForResults x with
    | true =>
      obtain ⟨t, t', ht, ht', hct, hout⟩ := exec_same_table (decode x) (s := s.withLines xs)
        (s' := s'.withLines (xs.filter countsForResults)) h
      obtain ⟨hresults, hend⟩ := ih hct
      rw [List.filter_cons_of_pos hcounts, runAll_cons ht, runAll_cons ht', hresults]
      refine ⟨?_, hend⟩
      split
      case isTrue haccepts => simp only [State.result, hout haccepts]
      case isFalse => rfl
    | false =>
      obtain ⟨haccepts, hreset⟩ := Bool.or_eq_false_iff.mp hcounts
      have hrep : (decode x).report? = none := by simpa [acceptsReport] using haccepts
      obtain ⟨t, hct, hrun⟩ := runAll_cons_of_no_report_of_no_reset hrep hreset xs s
      rw [List.filter_cons_of_neg (by simp [hcounts]), hrun]
      exact ih (hct.trans h)

/-- Two runs of the same lines from the same block give the same results and end in the same block (R36). -/
theorem runAll_of_same_block (xs : List Stimulus) {s s' : State} (h : s.block = s'.block) :
    (runAll xs s).1 = (runAll xs s').1 ∧ (runAll xs s).2.block = (runAll xs s').2.block := by
  simpa using runAll_map_of_same_block (f := id) (fun _ _ => rfl) (fun _ => rfl) xs h

/-- A run that begins with a reset depends on nothing before it (R129, R138). -/
theorem runAll_of_startsSession {xs : List Stimulus} (hstarts : startsSession xs = true) (s s' : State) :
    (runAll xs s).1 = (runAll xs s').1 ∧ (runAll xs s).2.block = (runAll xs s').2.block := by
  cases xs with
  | nil => contradiction
  | cons x xs =>
    obtain ⟨t, hblock, hrun⟩ := runAll_cons_of_reset hstarts xs s
    obtain ⟨t', hblock', hrun'⟩ := runAll_cons_of_reset hstarts xs s'
    rw [hrun, hrun']
    exact runAll_of_same_block xs (hblock.trans hblock'.symm)

/-- Idle edges in a row, at least one, leave the block as one does: the pulses fall, the rest holds (R102). -/
theorem runAll_replicate_idle_block (n : Nat) (w : PortWord) (s : State) :
    (runAll (List.replicate (n + 1) (.edge 0b00 w)) s).2.block = (s.ct, idleOutputs s.out) := by
  obtain ⟨t, hblock, hrun⟩ := runAll_cons_of_no_report (x := .edge 0b00 w) rfl (List.replicate n (.edge 0b00 w)) s
  have hkeep : blockAfter (decode (.edge 0b00 w)) t.block = t.block := by
    rw [hblock]
    rfl
  obtain ⟨-, hend⟩ := runAll_of_lines_keep_block (List.replicate n (.edge 0b00 w)) (s := t)
    (List.forall_mem_replicate.mpr (.inr ⟨rfl, hkeep⟩))
  rw [List.replicate_succ, hrun]
  exact hend.trans hblock

/-- Settles O40: the lines that count, the runs that begin with a reset, and the idle edges, each by its lemma. -/
theorem resultsDoNotDependOnTime : Obligations.ResultsDoNotDependOnTime :=
  ⟨fun xs _ => runAll_filter_countsForResults xs rfl, fun _ s s' hstarts => runAll_of_startsSession hstarts s s',
    runAll_replicate_idle_block⟩

/-! ### The decoder's two properties -/

/-- The result of a report edge tells which of the two checks passed (R83, R101, R113). -/
theorem reportEdge_result_tells_checks (s : State) (raw : Report) :
    ((s.reportEdge raw).result.clearShortcut = true ↔ checksumOk raw = true) ∧
    ((s.reportEdge raw).result.corruptionRejected = true ↔
      checksumOk raw = false ∧ checksumOk (decrypt Config.key raw) = false) := by
  unfold Result.clearShortcut Result.corruptionRejected State.result
  obtain ⟨hraw, hdec⟩ | ⟨hraw, hcand, hdec⟩ | ⟨hraw, hcand, hdec⟩ := decodeReport_cases Config.key raw
  case inl => simp [reportEdge_of_ok s hdec, hraw, successOutputs, DecodePath.bit]
  case inr.inl => simp [reportEdge_of_ok s hdec, hraw, hcand, successOutputs, DecodePath.bit]
  case inr.inr => simp [reportEdge_of_err s hdec, hraw, hcand, errorOutputs]

/-! ### The aggregator's two properties -/

/-- The value of a known channel (R99). -/
def Entry.value? (e : Entry) : Option Value := if e.valid then some e.value else none

@[simp] theorem Entry.value?_known (v : Value) : Entry.value? ⟨true, v⟩ = some v := rfl

@[simp] theorem Entry.isSome_value? (e : Entry) : e.value?.isSome = e.valid := by
  unfold Entry.value?
  split <;> simp [*]

theorem Entry.value?_of_valid {e : Entry} (h : e.valid = true) : e.value? = some e.value := if_pos h

/-- The table holds the latest value of each channel in the results so far, and knows no other channel (R93, R98). -/
def Memory.HoldsLatest (ct : Memory) (rs : List Result) : Prop :=
  ∀ op, latestValue op rs = (ct.read op).value?

/-- A result carries the sample of the gate on the table `ct` where it is successful, and else none (R97, R101). -/
def Result.CarriesSampleOf (r : Result) (ct : Memory) : Prop :=
  r.sampleValid = (!r.err && bothKnown ct) ∧
  r.sampleCo2 = (if r.sampleValid then (ct.read Config.opCo2).value else 0) ∧
  r.sampleTemp = (if r.sampleValid then (ct.read Config.opTemp).value else 0)

/-- One more result at the end is the latest of its channel where it is successful, and of no other. -/
theorem latestValue_concat (op : Byte) (rs : List Result) (r : Result) :
    latestValue op (rs ++ [r]) = if !r.err && r.opcode == op then some r.value else latestValue op rs := by
  rw [latestValue_append]
  simp only [latestValue, Option.none_or]
  split <;> rfl

/-- A report edge keeps the table's agreement with the results, its own result among them, and its result carries the
sample of the updated table. -/
theorem effect_of_holdsLatest {i : Instr} {s t : State} {rs : List Result} (hrep : i.report?.isSome = true)
    (hlatest : s.ct.HoldsLatest rs) (heffect : Effect i s t) :
    t.ct.HoldsLatest (rs ++ [t.result]) ∧ t.result.CarriesSampleOf t.ct := by
  obtain ⟨-, hrep', -⟩ | ⟨-, hrep', -⟩ | ⟨-, -, raw, path, dec, op, v, -, -, hct, hout⟩ |
    ⟨-, -, raw, att, -, -, hct, hout⟩ | ⟨-, hrep', -⟩ := heffect
  case inr.inr.inl =>
    rw [successOutputs_emissionGate] at hout
    refine ⟨fun a => ?_, by simp [Result.CarriesSampleOf, State.result, hout]⟩
    rw [latestValue_concat, hlatest a, hct, Memory.read_store]
    by_cases ha : a = op
    · simp [State.result, hout, ha]
    · simp [State.result, hout, ha, Ne.symm ha]
  case inr.inr.inr.inl =>
    refine ⟨fun a => ?_, by simp [Result.CarriesSampleOf, State.result, hout, errorOutputs]⟩
    rw [latestValue_concat, hlatest a, hct]
    simp [State.result, hout, errorOutputs]
  all_goals simp [hrep'] at hrep

/-- The induction over a session's lines, `rs` the results before them: each result carries the sample of a table that
holds the latest value of each channel up to and with it. -/
theorem runAll_carriesSampleOf_latest (xs : List Stimulus) {s : State} {rs before later : List Result} {r : Result}
    (hreset : ∀ x ∈ xs, isResetLine x = false) (hlatest : s.ct.HoldsLatest rs)
    (hrun : (runAll xs s).1 = before ++ r :: later) :
    ∃ ct : Memory, ct.HoldsLatest (rs ++ (before ++ [r])) ∧ r.CarriesSampleOf ct := by
  induction xs generalizing s rs before with
  | nil => simp at hrun
  | cons x xs ih =>
    obtain ⟨hx, hxs⟩ := List.forall_mem_cons.mp hreset
    cases hrep : (decode x).report? with
    | none =>
      obtain ⟨t, hct, hrest⟩ := runAll_cons_of_no_report_of_no_reset hrep hx xs s
      exact ih hxs (hct ▸ hlatest) (hrest ▸ hrun)
    | some raw =>
      obtain ⟨t, ht, -, heffect⟩ := exec_cases (decode x) (s.withLines xs)
      obtain ⟨hlatest', hsample⟩ := effect_of_holdsLatest (by rw [hrep]; rfl) hlatest heffect
      rw [runAll_cons ht, acceptsReport, hrep] at hrun
      cases before with
      | nil =>
        obtain ⟨rfl, -⟩ := List.cons.inj hrun
        exact ⟨t.ct, hlatest', hsample⟩
      | cons r' before =>
        obtain ⟨rfl, hrest⟩ := List.cons.inj hrun
        simpa using ih hxs hlatest' hrest

/-- A result that carries the sample of a table with the latest values meets emission gating (R97). -/
theorem sampleValid_iff_of_holdsLatest {r : Result} {ct : Memory} {rs : List Result} (hlatest : ct.HoldsLatest rs)
    (hsample : r.CarriesSampleOf ct) :
    (r.sampleValid = true ↔ r.err = false ∧ (latestValue Config.opCo2 rs).isSome = true ∧
      (latestValue Config.opTemp rs).isSome = true) ∧
    (r.sampleValid = false → r.sampleCo2 = 0 ∧ r.sampleTemp = 0) := by
  obtain ⟨hvalid, hco2, htemp⟩ := hsample
  refine ⟨?_, fun hnone => ?_⟩
  · rw [hvalid, hlatest, hlatest]
    simp [bothKnown]
  · rw [hco2, htemp, hnone]
    exact ⟨rfl, rfl⟩

/-- A result that carries the sample of a table with the latest values meets last-write-wins (R98). -/
theorem latestValue_eq_sample_of_holdsLatest {r : Result} {ct : Memory} {rs : List Result}
    (hlatest : ct.HoldsLatest rs) (hsample : r.CarriesSampleOf ct) (hsv : r.sampleValid = true) :
    latestValue Config.opCo2 rs = some r.sampleCo2 ∧ latestValue Config.opTemp rs = some r.sampleTemp := by
  obtain ⟨hvalid, hco2, htemp⟩ := hsample
  have hknown : bothKnown ct = true := (Bool.and_eq_true_iff.mp (hvalid.symm.trans hsv)).2
  obtain ⟨hknownCo2, hknownTemp⟩ := Bool.and_eq_true_iff.mp hknown
  rw [hlatest, hlatest, hco2, htemp, hsv]
  exact ⟨Entry.value?_of_valid hknownCo2, Entry.value?_of_valid hknownTemp⟩

/-- A session, from its reset edge on, meets emission gating and last-write-wins: the empty table holds the latest
values of no result. -/
theorem session_emissionGating_and_lastWriteWins {x : Stimulus} {xs : List Stimulus} (s : State)
    (hstarts : isResetLine x = true) (hreset : ∀ y ∈ xs, isResetLine y = false) :
    emissionGating (runAll (x :: xs) s).1 ∧ lastWriteWins (runAll (x :: xs) s).1 := by
  obtain ⟨t, hblock, hrun⟩ := runAll_cons_of_reset hstarts xs s
  have hct : t.ct = [] := congrArg Prod.fst hblock
  have hlatest : t.ct.HoldsLatest [] := fun _ => by rw [hct]; rfl
  rw [hrun]
  constructor
  · intro before r later hsplit
    obtain ⟨ct, hholds, hsample⟩ := runAll_carriesSampleOf_latest xs hreset hlatest hsplit
    exact sampleValid_iff_of_holdsLatest hholds hsample
  · intro before r later hsplit hsv
    obtain ⟨ct, hholds, hsample⟩ := runAll_carriesSampleOf_latest xs hreset hlatest hsplit
    exact latestValue_eq_sample_of_holdsLatest hholds hsample hsv

/-- Settles O47: the decoder's two properties are of each report edge, the aggregator's two of each session. -/
theorem testablePropertiesReadOffTheResult : Obligations.TestablePropertiesReadOffTheResult :=
  ⟨fun _ raw s hrep => ⟨_, exec_of_report hrep s, reportEdge_result_tells_checks s raw⟩,
    fun _ _ s hstarts hreset => session_emissionGating_and_lastWriteWins s hstarts hreset⟩

end Sys2Proof.Machine
end

section
/-! Proofs about decoding and encoding (30_encoding.md R51, R59, R61): the report cycle and the encoder each the other's
inverse, and the byte form of a stimulus with its rejection of partial reports (20_memory.md R42). -/

namespace Sys2Proof.Machine

/-! ### Report cycles -/

/-- A report transaction is encoded as the report cycle of its raw report, whatever its class (R51). -/
theorem encode_of_report {i : Instr} {raw : Report} (h : i.report? = some raw) :
    encode i = .edge (ctrlWord false true) (pack raw) := by
  cases i <;> cases h <;> rfl

/-- A report cycle decodes to a constructor that holds reports of its class (R59). -/
theorem decodeReportLine_wellFormed (raw : Report) : (decodeReportLine raw).wellFormed = true := by
  unfold decodeReportLine
  split <;> simp [Instr.wellFormed, *]

/-- A report has one well-formed transaction: its class fixes the constructor (R59). -/
theorem decodeReportLine_of_wellFormed {i : Instr} {raw : Report} (hwf : i.wellFormed = true)
    (hrep : i.report? = some raw) : decodeReportLine raw = i := by
  cases i <;> cases hrep <;> rw [decodeReportLine, eq_of_beq hwf]

/-- Decoding the encoding of a well-formed report transaction gives it back. -/
theorem decode_encode_of_report {i : Instr} {raw : Report} (hwf : i.wellFormed = true) (hrep : i.report? = some raw) :
    decode (encode i) = i := by
  rw [encode_of_report hrep, decode_edge_report, unpack_pack, decodeReportLine_of_wellFormed hwf hrep]

/-- Encoding what a report cycle decodes to gives its stimulus back. -/
theorem encode_decodeReportLine (raw : Report) :
    encode (decodeReportLine raw) = .edge (ctrlWord false true) (pack raw) :=
  encode_of_report (decodeReportLine_report? raw)

/-! ### Every transaction and every stimulus -/

/-- Settles O18: a report comes back under its class by `decode_encode_of_report`, the other transactions by the bits of
their control word or the level on their own input. -/
theorem decodeOfEncodeIsTheTransaction : Obligations.DecodeOfEncodeIsTheTransaction := by
  intro i hwf
  cases i with
  | rst v w => exact decode_edge_rst v w
  | idle w => exact decode_edge_idle w
  | rptCo2 raw => exact decode_encode_of_report hwf rfl
  | rptTemp raw => exact decode_encode_of_report hwf rfl
  | rptUnknown raw => exact decode_encode_of_report hwf rfl
  | rptChkerr raw => exact decode_encode_of_report hwf rfl
  | diag a => rfl
  | decrypt data => rw [encode, decode, unpack_pack]
  | chksum d => rw [encode, decode, unpack_pack]

/-- Settles O19: the two bits of the control word select the transaction, and `unpack` loses nothing of the level. -/
theorem encodeOfDecodeIsTheStimulus : Obligations.EncodeOfDecodeIsTheStimulus := by
  intro x
  cases x with
  | edge ctrl w =>
    obtain ⟨rst, valid, rfl⟩ : ∃ rst valid, ctrl = ctrlWord rst valid := ⟨_, _, (ctrlWord_bits ctrl).symm⟩
    cases rst with
    | true =>
      rw [decode_edge_rst]
      exact ⟨rfl, rfl⟩
    | false =>
      cases valid with
      | true =>
        rw [decode_edge_report, encode_decodeReportLine, pack_unpack]
        exact ⟨decodeReportLine_wellFormed _, rfl⟩
      | false =>
        rw [decode_edge_idle]
        exact ⟨rfl, rfl⟩
  | diagPort a => exact ⟨rfl, rfl⟩
  | transformPort w => exact ⟨rfl, congrArg Stimulus.transformPort (pack_unpack w)⟩
  | validatorPort w => exact ⟨rfl, congrArg Stimulus.validatorPort (pack_unpack w)⟩

/-- Settles O22: the words without a report are read off the control word, and the class of each report is evaluated. -/
theorem writtenWordsDecodeRight : Obligations.WrittenWordsDecodeRight :=
  ⟨rfl, rfl, rfl, by decide, by decide, by decide, by decide, by decide, rfl⟩

/-! ### The byte form -/

/-- The bytes of a port word, in index order, are the word's whole report (R38). -/
@[simp] theorem wordOfBytes_bytesOfReport (w : PortWord) : wordOfBytes (bytesOfReport (unpack w)) = .ok w := by
  rw [wordOfBytes, reportOfBytes_bytesOfReport]
  exact congrArg Except.ok (pack_unpack w)

/-- Bytes that are no whole report have no port word (R42). -/
theorem wordOfBytes_of_length_ne {bs : List Byte} (h : bs.length ≠ 8) : wordOfBytes bs = .error .notAWholeReport := by
  have hnone : reportOfBytes bs = none := by
    rw [← Option.not_isSome_iff_eq_none, reportOfBytes_isSome_iff]
    exact h
  rw [wordOfBytes, hnone]

/-- The two bits of a control word fit its byte, and are read back from it (R51). -/
theorem ctrl_byte_reads_back (ctrl : BitVec 2) :
    (ctrl.setWidth 8).toNat < 4 ∧ (ctrl.setWidth 8).setWidth 2 = ctrl := by
  revert ctrl
  decide

/-- Settles O20: the control byte holds the control word, and the eight bytes hold the level. -/
theorem stimulusBytesReadBack : Obligations.StimulusBytesReadBack := by
  intro x
  cases x with
  | edge ctrl w =>
    obtain ⟨hfits, hback⟩ := ctrl_byte_reads_back ctrl
    rw [bytesOfStimulus, stimulusOfBytes, if_pos hfits, wordOfBytes_bytesOfReport, hback]
    rfl
  | diagPort a => rfl
  | transformPort w =>
    rw [bytesOfStimulus, stimulusOfBytes, wordOfBytes_bytesOfReport]
    rfl
  | validatorPort w =>
    rw [bytesOfStimulus, stimulusOfBytes, wordOfBytes_bytesOfReport]
    rfl

/-- Settles O21: each of the three inputs takes its report from `wordOfBytes`, which has no word for the bytes. -/
theorem partialReportsAreRejected : Obligations.PartialReportsAreRejected := by
  intro c bs hlen
  have hword := wordOfBytes_of_length_ne hlen
  refine ⟨?transform, ?validator, fun hfits => ?clocked⟩
  case transform =>
    rw [decodeBytes, stimulusOfBytes, hword]
    rfl
  case validator =>
    rw [decodeBytes, stimulusOfBytes, hword]
    rfl
  case clocked =>
    rw [decodeBytes, stimulusOfBytes, if_pos hfits, hword]
    rfl

end Sys2Proof.Machine
end

section
/-! Proofs about the canonical form of the channel table (10_state.md R20, R21) and the invariant of the block: what a
canonical table lists is what it reads, and every effect of a step keeps the invariant. -/

namespace Sys2Proof.Machine

/-! ### Canonical tables -/

/-- The canonical form of a table with a first entry. -/
theorem Memory.wfFrom_cons {lo k : Nat} {e : Entry} {rest : Memory} :
    Memory.wfFrom lo ((k, e) :: rest) = true ↔
      lo ≤ k ∧ k < Config.tableSize ∧ e ≠ Entry.unseen ∧ rest.wfFrom (k + 1) = true := by
  simp [Memory.wfFrom, and_assoc]

/-- A canonical table is canonical from its own first address on. -/
theorem Memory.wfFrom_head {lo k : Nat} {e : Entry} {rest : Memory} (h : Memory.wfFrom lo ((k, e) :: rest) = true) :
    Memory.wfFrom k ((k, e) :: rest) = true :=
  Memory.wfFrom_cons.mpr ⟨le_rfl, (Memory.wfFrom_cons.mp h).2⟩

theorem Memory.read_cons (k : Nat) (e : Entry) (rest : Memory) (a : Byte) :
    Memory.read ((k, e) :: rest) a = if k = a.toNat then e else rest.read a := rfl

/-- A canonical table from `lo` on lists nothing below `lo`. -/
theorem Memory.read_of_lt {m : Memory} {lo : Nat} (h : m.wfFrom lo = true) {a : Byte} (ha : a.toNat < lo) :
    m.read a = Entry.unseen := by
  induction m generalizing lo with
  | nil => rfl
  | cons c rest ih =>
    obtain ⟨hlo, -, -, hrest⟩ := Memory.wfFrom_cons.mp h
    rw [Memory.read_cons, if_neg (by omega)]
    exact ih hrest (by omega)

/-- The first entry of a canonical table is what is read at its address. -/
theorem Memory.read_head {lo k : Nat} {e : Entry} {rest : Memory} (h : Memory.wfFrom lo ((k, e) :: rest) = true) :
    ∃ a : Byte, a.toNat = k ∧ Memory.read ((k, e) :: rest) a = e ∧ e ≠ Entry.unseen := by
  obtain ⟨-, hk, he, -⟩ := Memory.wfFrom_cons.mp h
  have ha : (BitVec.ofNat 8 k).toNat = k := Nat.mod_eq_of_lt hk
  exact ⟨BitVec.ofNat 8 k, ha, by rw [Memory.read_cons, if_pos ha.symm], he⟩

/-- A canonical table from `lo` on that reads as one with a first entry does can only begin at or below its address. -/
theorem Memory.le_head_of_read_eq {m rest : Memory} {lo lo' k : Nat} {e : Entry} (hm : m.wfFrom lo = true)
    (hcons : Memory.wfFrom lo' ((k, e) :: rest) = true) (hread : ∀ a, m.read a = Memory.read ((k, e) :: rest) a) :
    lo ≤ k := by
  obtain ⟨a, rfl, ha, he⟩ := Memory.read_head hcons
  by_contra hlt
  exact he (by rw [← ha, ← hread, Memory.read_of_lt hm (by omega)])

/-- Two canonical tables that read the same are the same data, by induction over both: each begins at the other's first
address, with the entry read there, and the rests read the same, both from the next address on. -/
theorem Memory.eq_of_read_eq {m m' : Memory} {lo lo' : Nat} (hm : m.wfFrom lo = true) (hm' : m'.wfFrom lo' = true)
    (hread : ∀ a, m.read a = m'.read a) : m = m' := by
  induction m generalizing m' lo lo' with
  | nil =>
    cases m' with
    | nil => rfl
    | cons c' rest' =>
      obtain ⟨a, -, ha, he⟩ := Memory.read_head hm'
      exact absurd (ha.symm.trans (hread a).symm) he
  | cons c rest ih =>
    cases m' with
    | nil =>
      obtain ⟨a, -, ha, he⟩ := Memory.read_head hm
      exact absurd (ha.symm.trans (hread a)) he
    | cons c' rest' =>
      obtain ⟨k, e⟩ := c
      obtain ⟨k', e'⟩ := c'
      obtain ⟨-, -, -, hrest⟩ := Memory.wfFrom_cons.mp hm
      obtain ⟨-, -, -, hrest'⟩ := Memory.wfFrom_cons.mp hm'
      have hle : k ≤ k' := Memory.le_head_of_read_eq (Memory.wfFrom_head hm) hm' hread
      have hle' : k' ≤ k := Memory.le_head_of_read_eq (Memory.wfFrom_head hm') hm fun a => (hread a).symm
      obtain rfl : k = k' := le_antisymm hle hle'
      obtain ⟨a, hak, ha, -⟩ := Memory.read_head hm
      have hentry : e = e' := by rw [← ha, hread, Memory.read_cons, if_pos hak.symm]
      have hrests : ∀ b, Memory.read rest b = Memory.read rest' b := by
        intro b
        by_cases hb : k = b.toNat
        · rw [Memory.read_of_lt hrest (by omega), Memory.read_of_lt hrest' (by omega)]
        · simpa only [Memory.read_cons, if_neg hb] using hread b
      rw [hentry, ih hrest hrest' hrests]

/-- Storing what an entry already holds leaves a canonical table as it was. -/
theorem Memory.write_of_read_eq {m : Memory} (h : m.wf = true) {a : Byte} {v : Value} (ha : m.read a = ⟨true, v⟩) :
    m.write a ⟨true, v⟩ = m := by
  refine Memory.eq_of_read_eq (Memory.wf_write a _ h) h fun b => ?_
  rw [Memory.read_store]
  split
  case isTrue hb => rw [hb, ha]
  case isFalse => rfl

/-- Settles O48: `Memory.eq_of_read_eq`, and the store that changes no read. -/
theorem canonicalTablesAreTheirContents : Obligations.CanonicalTablesAreTheirContents := by
  intro m m' hm hm'
  exact ⟨⟨Memory.eq_of_read_eq hm hm', fun h a => by rw [h]⟩, fun a v => Memory.write_of_read_eq hm⟩

/-! ### The registers tell of the last report -/

/-- What the registers tell where the report in ORAW decodes (R101). -/
theorem tellOf_iff_of_ok {o : Outputs} {raw dec : Report} {path : DecodePath} {op : Byte} {v : Value} (ct : Memory)
    (hraw : unpack o.oraw = raw) (hdec : decodeReport Config.key raw = .ok path dec op v) :
    o.tellOf ct ↔ ct.read op = ⟨true, v⟩ ∧
      o = { successOutputs raw path dec op v (emissionGate ct) with ov := o.ov, sv := o.ov && bothKnown ct } := by
  unfold Outputs.tellOf
  rw [hraw, hdec]

/-- What the registers tell where the report in ORAW fails both checks (R113). -/
theorem tellOf_iff_of_err {o : Outputs} {raw raw' att : Report} (ct : Memory) (hraw : unpack o.oraw = raw)
    (hdec : decodeReport Config.key raw = .err raw' att) :
    o.tellOf ct ↔ o = { errorOutputs raw' att with ov := o.ov } := by
  unfold Outputs.tellOf
  rw [hraw, hdec]

/-- After a report that decodes, the registers tell of it and of the table it has updated (R97, R101). -/
theorem successOutputs_tellOf {raw dec : Report} {path : DecodePath} {op : Byte} {v : Value} {ct : Memory}
    (hdec : decodeReport Config.key raw = .ok path dec op v) (hread : ct.read op = ⟨true, v⟩) :
    (successOutputs raw path dec op v (emissionGate ct)).tellOf ct := by
  have hraw : unpack (successOutputs raw path dec op v (emissionGate ct)).oraw = raw := unpack_pack raw
  refine (tellOf_iff_of_ok ct hraw hdec).mpr ⟨hread, ?_⟩
  simp [successOutputs, emissionGate_isSome]

/-- After a report that fails both checks, the registers tell of it, whatever the table (R113). -/
theorem errorOutputs_tellOf {raw att : Report} (ct : Memory) (hdec : decodeReport Config.key raw = .err raw att) :
    (errorOutputs raw att).tellOf ct := by
  have hraw : unpack (errorOutputs raw att).oraw = raw := unpack_pack raw
  exact (tellOf_iff_of_err ct hraw hdec).mpr rfl

/-- Over an idle edge the registers still tell of the last report: the pulses may fall, the others hold (R102). -/
theorem idleOutputs_tellOf {o : Outputs} {ct : Memory} (h : o.tellOf ct) : (idleOutputs o).tellOf ct := by
  have hraw : unpack (idleOutputs o).oraw = unpack o.oraw := rfl
  cases hdec : decodeReport Config.key (unpack o.oraw) with
  | ok path dec op v =>
    obtain ⟨hread, hout⟩ := (tellOf_iff_of_ok ct rfl hdec).mp h
    exact (tellOf_iff_of_ok ct hraw hdec).mpr ⟨hread, (congrArg idleOutputs hout :)⟩
  | err raw att =>
    have hout := (tellOf_iff_of_err ct rfl hdec).mp h
    exact (tellOf_iff_of_err ct hraw hdec).mpr (congrArg idleOutputs hout :)

/-! ### The invariant -/

/-- Settles O27: the reset table is empty and the registers are those of reset. -/
theorem resetMeetsInvariant : Obligations.ResetMeetsInvariant :=
  ⟨rfl, rfl, .inl ⟨rfl, rfl⟩⟩

/-- Each of the five effects of a transaction keeps the invariant. -/
theorem inv_of_effect {i : Instr} {s t : State} (hinv : s.Inv) (heffect : Effect i s t) : t.Inv := by
  obtain ⟨hwf, hknown, htell⟩ := hinv
  unfold State.Inv
  obtain ⟨-, -, -, hct, hout⟩ | ⟨-, -, -, hct, hout⟩ | ⟨-, -, raw, path, dec, op, v, -, hdec, hct, hout⟩ |
    ⟨-, -, raw, att, -, hdec, hct, hout⟩ | ⟨-, -, -, hct, hout⟩ := heffect <;> rw [hout, hct]
  case inl => exact resetMeetsInvariant
  case inr.inl =>
    refine ⟨hwf, hknown, htell.imp (fun ⟨hempty, hreset⟩ => ⟨hempty, ?_⟩) idleOutputs_tellOf⟩
    rw [hreset]
    rfl
  case inr.inr.inl =>
    have hread : (s.ct.write op ⟨true, v⟩).read op = ⟨true, v⟩ := by rw [Memory.read_store, if_pos rfl]
    exact ⟨Memory.wf_write op _ hwf, Memory.allKnown_store op v hknown, .inr (successOutputs_tellOf hdec hread)⟩
  case inr.inr.inr.inl => exact ⟨hwf, hknown, .inr (errorOutputs_tellOf s.ct hdec)⟩
  case inr.inr.inr.inr => exact ⟨hwf, hknown, htell⟩

/-- Settles O26: a step has the effect of the line it takes. -/
theorem stepKeepsInvariant : Obligations.StepKeepsInvariant :=
  fun _ _ hinv hstep => inv_of_effect hinv (step_effect hstep)

end Sys2Proof.Machine
end
